-- ==== Sys2Proof/Word.lean ====
section
/-! DEFINITION. The machine's value types (00_scope.md R9, R11, R12): every register, memory byte and instruction field
is an unsigned number of a stated width. -/

namespace Sys2Proof

/-- One byte: a general register, a timer, a memory byte, the immediate NN (R9, R103). -/
abbrev Byte := BitVec 8

/-- A 16-bit value: `I`, `pc`, a stack entry, an instruction word (R9). -/
abbrev Word := BitVec 16

/-- The 12-bit address field NNN (R103). -/
abbrev Addr12 := BitVec 12

/-- The index of a general register, 0x0 to 0xF (R9 NREG, 10_state.md R32). -/
abbrev Reg := Fin 16

/-- The index of a key, 0x0 to 0xF (R9 NKEYS, 10_state.md R46). -/
abbrev Key := Fin 16

/-- A display column (R9 DISPLAY_W). -/
abbrev Col := Fin 64

/-- A display row (R9 DISPLAY_H). -/
abbrev Row := Fin 32

/-- VF, the register that also takes the flags (10_state.md R33). -/
abbrev VF : Reg := 15

end Sys2Proof
end

