-- ==== Sys2Proof/Syntax.lean ====
section
/-! DEFINITION. The instruction set: one constructor per row of the opcode map (30_encoding.md R120), with the
operands its format carries (R103 to R105). -/

namespace Sys2Proof

/-- The 34 instructions of 30_encoding.md R120, in its row order. -/
inductive Instr where
  /-- 00E0 (45_display.md R501) -/
  | clearScreen
  /-- 00EE (40_control_flow.md R203) -/
  | ret
  /-- 1nnn (R204) -/
  | jump (nnn : Addr12)
  /-- 2nnn (R205) -/
  | call (nnn : Addr12)
  /-- 3xnn (41_skip.md R251) -/
  | skipEqImm (x : Reg) (nn : Byte)
  /-- 4xnn (R252) -/
  | skipNeImm (x : Reg) (nn : Byte)
  /-- 5xy0 (R253) -/
  | skipEqReg (x y : Reg)
  /-- 6xnn (42_alu.md R303) -/
  | loadImm (x : Reg) (nn : Byte)
  /-- 7xnn (R304) -/
  | addImm (x : Reg) (nn : Byte)
  /-- 8xy0 (R305) -/
  | assign (x y : Reg)
  /-- 8xy1 (R306) -/
  | or (x y : Reg)
  /-- 8xy2 (R307) -/
  | and (x y : Reg)
  /-- 8xy3 (R308) -/
  | xor (x y : Reg)
  /-- 8xy4 (R309) -/
  | add (x y : Reg)
  /-- 8xy5 (R310) -/
  | sub (x y : Reg)
  /-- 8xy6 (R311): `y` is encoded and not read. -/
  | shr (x y : Reg)
  /-- 8xy7 (R312) -/
  | subn (x y : Reg)
  /-- 8xyE (R313): `y` is encoded and not read. -/
  | shl (x y : Reg)
  /-- 9xy0 (41_skip.md R254) -/
  | skipNeReg (x y : Reg)
  /-- Annn (43_index_memory.md R401) -/
  | loadAddr (nnn : Addr12)
  /-- Bnnn (40_control_flow.md R206) -/
  | jumpOffset (nnn : Addr12)
  /-- Cxnn (42_alu.md R314) -/
  | rand (x : Reg) (nn : Byte)
  /-- Dxyn (45_display.md R503): `n` is the number of sprite rows, 0 to 15. -/
  | draw (x y : Reg) (n : Nat)
  /-- Fx07 (44_timers_keys.md R451) -/
  | getDelay (x : Reg)
  /-- Fx15 (R452) -/
  | setDelay (x : Reg)
  /-- Fx18 (R453) -/
  | setSound (x : Reg)
  /-- Fx1E (43_index_memory.md R402) -/
  | addAddr (x : Reg)
  /-- Fx29 (R403) -/
  | fontAddr (x : Reg)
  /-- Fx33 (R404) -/
  | bcdStore (x : Reg)
  /-- Fx55 (R405): `x` is the last register stored. -/
  | regDump (x : Reg)
  /-- Fx65 (R406): `x` is the last register loaded. -/
  | regLoad (x : Reg)
  /-- Ex9E (41_skip.md R255) -/
  | skipKey (x : Reg)
  /-- ExA1 (R256) -/
  | skipNkey (x : Reg)
  /-- Fx0A (44_timers_keys.md R455) -/
  | waitKey (x : Reg)
deriving DecidableEq, Repr

/-- The mnemonic of 30_encoding.md R120. -/
def Instr.mnemonic : Instr → String
  | .clearScreen => "clear-screen"
  | .ret => "return"
  | .jump _ => "jump"
  | .call _ => "call"
  | .skipEqImm _ _ => "skip-eq-imm"
  | .skipNeImm _ _ => "skip-ne-imm"
  | .skipEqReg _ _ => "skip-eq-reg"
  | .loadImm _ _ => "load-imm"
  | .addImm _ _ => "add-imm"
  | .assign _ _ => "assign"
  | .or _ _ => "or"
  | .and _ _ => "and"
  | .xor _ _ => "xor"
  | .add _ _ => "add"
  | .sub _ _ => "sub"
  | .shr _ _ => "shr"
  | .subn _ _ => "subn"
  | .shl _ _ => "shl"
  | .skipNeReg _ _ => "skip-ne-reg"
  | .loadAddr _ => "load-addr"
  | .jumpOffset _ => "jump-offset"
  | .rand _ _ => "rand"
  | .draw _ _ _ => "draw"
  | .getDelay _ => "get-delay"
  | .setDelay _ => "set-delay"
  | .setSound _ => "set-sound"
  | .addAddr _ => "add-addr"
  | .fontAddr _ => "font-addr"
  | .bcdStore _ => "bcd-store"
  | .regDump _ => "reg-dump"
  | .regLoad _ => "reg-load"
  | .skipKey _ => "skip-key"
  | .skipNkey _ => "skip-nkey"
  | .waitKey _ => "wait-key"

end Sys2Proof
end

