-- ==== Sys2Proof/WellFormed.lean ====
section
/-! DEFINITION. Which instruction terms the encoding can carry (30_encoding.md R103, R105). Register indices, NN and
NNN are bounded by their types; the row count of `draw` is the one operand that needs a check. -/

namespace Sys2Proof

/-- `i` has an encoding: the row count N of `draw` is in 0..15 (R105). -/
def Instr.wf : Instr → Bool
  | .clearScreen => true
  | .ret => true
  | .jump _ => true
  | .call _ => true
  | .skipEqImm _ _ => true
  | .skipNeImm _ _ => true
  | .skipEqReg _ _ => true
  | .loadImm _ _ => true
  | .addImm _ _ => true
  | .assign _ _ => true
  | .or _ _ => true
  | .and _ _ => true
  | .xor _ _ => true
  | .add _ _ => true
  | .sub _ _ => true
  | .shr _ _ => true
  | .subn _ _ => true
  | .shl _ _ => true
  | .skipNeReg _ _ => true
  | .loadAddr _ => true
  | .jumpOffset _ => true
  | .rand _ _ => true
  | .draw _ _ n => decide (n < 16)
  | .getDelay _ => true
  | .setDelay _ => true
  | .setSound _ => true
  | .addAddr _ => true
  | .fontAddr _ => true
  | .bcdStore _ => true
  | .regDump _ => true
  | .regLoad _ => true
  | .skipKey _ => true
  | .skipNkey _ => true
  | .waitKey _ => true

end Sys2Proof
end

