-- ==== Sys2Proof/Decode.lean ====
section
/-! DEFINITION. Decoding (30_encoding.md R100 to R107, R120, R121): total on any bytes, rejecting by name; then the
encoder, written from the formats of R104, and the opcode map of R120 as data. -/

namespace Sys2Proof

/-- Why bytes are no instruction. -/
inductive DecodeError where
  /-- fewer than the two bytes every instruction takes (R100) -/
  | truncated
  /-- a word that no row of the opcode map matches (R107, R121) -/
  | illegal (w : Word)
deriving DecidableEq, Repr

/-- `v[hi:lo]`, read as an unsigned number (00_scope.md R11). -/
def bits (w : Word) (hi lo : Nat) : Nat := w.toNat / 2 ^ lo % 2 ^ (hi - lo + 1)

/-- F, the opcode family (R103). -/
def fieldF (w : Word) : Nat := bits w 15 12

/-- X (R103). -/
def fieldX (w : Word) : Reg := Fin.ofNat 16 (bits w 11 8)

/-- Y (R103). -/
def fieldY (w : Word) : Reg := Fin.ofNat 16 (bits w 7 4)

/-- N (R103). -/
def fieldN (w : Word) : Nat := bits w 3 0

/-- NN (R103). -/
def fieldNN (w : Word) : Byte := BitVec.ofNat 8 (bits w 7 0)

/-- NNN (R103). -/
def fieldNNN (w : Word) : Addr12 := BitVec.ofNat 12 (bits w 11 0)

/-- The decode function of R107, family by family. -/
def decodeWord (w : Word) : Except DecodeError Instr :=
  match fieldF w with
  | 0x0 =>
    if w = 0x00E0#16 then .ok .clearScreen
    else if w = 0x00EE#16 then .ok .ret
    else .error (.illegal w)
  | 0x1 => .ok (.jump (fieldNNN w))
  | 0x2 => .ok (.call (fieldNNN w))
  | 0x3 => .ok (.skipEqImm (fieldX w) (fieldNN w))
  | 0x4 => .ok (.skipNeImm (fieldX w) (fieldNN w))
  | 0x5 => if fieldN w = 0 then .ok (.skipEqReg (fieldX w) (fieldY w)) else .error (.illegal w)
  | 0x6 => .ok (.loadImm (fieldX w) (fieldNN w))
  | 0x7 => .ok (.addImm (fieldX w) (fieldNN w))
  | 0x8 =>
    match fieldN w with
    | 0x0 => .ok (.assign (fieldX w) (fieldY w))
    | 0x1 => .ok (.or (fieldX w) (fieldY w))
    | 0x2 => .ok (.and (fieldX w) (fieldY w))
    | 0x3 => .ok (.xor (fieldX w) (fieldY w))
    | 0x4 => .ok (.add (fieldX w) (fieldY w))
    | 0x5 => .ok (.sub (fieldX w) (fieldY w))
    | 0x6 => .ok (.shr (fieldX w) (fieldY w))
    | 0x7 => .ok (.subn (fieldX w) (fieldY w))
    | 0xE => .ok (.shl (fieldX w) (fieldY w))
    | _ => .error (.illegal w)
  | 0x9 => if fieldN w = 0 then .ok (.skipNeReg (fieldX w) (fieldY w)) else .error (.illegal w)
  | 0xA => .ok (.loadAddr (fieldNNN w))
  | 0xB => .ok (.jumpOffset (fieldNNN w))
  | 0xC => .ok (.rand (fieldX w) (fieldNN w))
  | 0xD => .ok (.draw (fieldX w) (fieldY w) (fieldN w))
  | 0xE =>
    match bits w 7 0 with
    | 0x9E => .ok (.skipKey (fieldX w))
    | 0xA1 => .ok (.skipNkey (fieldX w))
    | _ => .error (.illegal w)
  | 0xF =>
    match bits w 7 0 with
    | 0x07 => .ok (.getDelay (fieldX w))
    | 0x0A => .ok (.waitKey (fieldX w))
    | 0x15 => .ok (.setDelay (fieldX w))
    | 0x18 => .ok (.setSound (fieldX w))
    | 0x1E => .ok (.addAddr (fieldX w))
    | 0x29 => .ok (.fontAddr (fieldX w))
    | 0x33 => .ok (.bcdStore (fieldX w))
    | 0x55 => .ok (.regDump (fieldX w))
    | 0x65 => .ok (.regLoad (fieldX w))
    | _ => .error (.illegal w)
  | _ => .error (.illegal w)

/-- `(high_byte << 8) | low_byte`: instruction words are big-endian (20_memory.md R73, R101). -/
def wordOfBytes (hi lo : Byte) : Word := hi.setWidth 16 <<< 8 ||| lo.setWidth 16

/-- The byte of `w` at the lower address: bits 15 to 8 (20_memory.md R73). -/
def highByte (w : Word) : Byte := (w >>> 8).setWidth 8

/-- The byte of `w` at the higher address: bits 7 to 0 (20_memory.md R73). -/
def lowByte (w : Word) : Byte := w.setWidth 8

/-- Decode from a stream of bytes: exactly two are consumed (R100). -/
def decodeBytes : List Byte → Except DecodeError (Instr × List Byte)
  | hi :: lo :: rest =>
    match decodeWord (wordOfBytes hi lo) with
    | .ok i => .ok (i, rest)
    | .error e => .error e
  | _ => .error .truncated

/-- `ffff aaaa aaaa aaaa` (R104 `nnn`). -/
def wordNNN (f : Nat) (a : Addr12) : Word := BitVec.ofNat 16 (f * 4096 + a.toNat)

/-- `ffff xxxx kkkk kkkk` (R104 `xnn`). -/
def wordXNN (f : Nat) (x : Reg) (k : Byte) : Word := BitVec.ofNat 16 (f * 4096 + x.val * 256 + k.toNat)

/-- `ffff xxxx yyyy nnnn` (R104 `xyn`, and `xy` with the selector as `n`). -/
def wordXYN (f : Nat) (x y : Reg) (n : Nat) : Word :=
  BitVec.ofNat 16 (f * 4096 + x.val * 256 + y.val * 16 + n)

/-- The word of a well-formed instruction (R104, R120). -/
def encode : Instr → Word
  | .clearScreen => 0x00E0#16
  | .ret => 0x00EE#16
  | .jump a => wordNNN 0x1 a
  | .call a => wordNNN 0x2 a
  | .skipEqImm x k => wordXNN 0x3 x k
  | .skipNeImm x k => wordXNN 0x4 x k
  | .skipEqReg x y => wordXYN 0x5 x y 0x0
  | .loadImm x k => wordXNN 0x6 x k
  | .addImm x k => wordXNN 0x7 x k
  | .assign x y => wordXYN 0x8 x y 0x0
  | .or x y => wordXYN 0x8 x y 0x1
  | .and x y => wordXYN 0x8 x y 0x2
  | .xor x y => wordXYN 0x8 x y 0x3
  | .add x y => wordXYN 0x8 x y 0x4
  | .sub x y => wordXYN 0x8 x y 0x5
  | .shr x y => wordXYN 0x8 x y 0x6
  | .subn x y => wordXYN 0x8 x y 0x7
  | .shl x y => wordXYN 0x8 x y 0xE
  | .skipNeReg x y => wordXYN 0x9 x y 0x0
  | .loadAddr a => wordNNN 0xA a
  | .jumpOffset a => wordNNN 0xB a
  | .rand x k => wordXNN 0xC x k
  | .draw x y n => wordXYN 0xD x y n
  | .getDelay x => wordXNN 0xF x 0x07
  | .setDelay x => wordXNN 0xF x 0x15
  | .setSound x => wordXNN 0xF x 0x18
  | .addAddr x => wordXNN 0xF x 0x1E
  | .fontAddr x => wordXNN 0xF x 0x29
  | .bcdStore x => wordXNN 0xF x 0x33
  | .regDump x => wordXNN 0xF x 0x55
  | .regLoad x => wordXNN 0xF x 0x65
  | .skipKey x => wordXNN 0xE x 0x9E
  | .skipNkey x => wordXNN 0xE x 0xA1
  | .waitKey x => wordXNN 0xF x 0x0A

/-- The two bytes of an instruction as memory holds them, high byte first (20_memory.md R73). -/
def encodeBytes (i : Instr) : List Byte := [highByte (encode i), lowByte (encode i)]

/-- One row of the opcode map (R120). -/
structure OpcodeRow where
  mnemonic : String
  pattern : Word
  mask : Word
deriving DecidableEq, Repr

/-- `w & mask == match` (R120). -/
def OpcodeRow.covers (r : OpcodeRow) (w : Word) : Bool := w &&& r.mask == r.pattern

/-- Rows 1 to 12 of R120. -/
def opcodeRowsA : List OpcodeRow :=
  [⟨"clear-screen", 0x00E0, 0xFFFF⟩, ⟨"return", 0x00EE, 0xFFFF⟩, ⟨"jump", 0x1000, 0xF000⟩, ⟨"call", 0x2000, 0xF000⟩,
   ⟨"skip-eq-imm", 0x3000, 0xF000⟩, ⟨"skip-ne-imm", 0x4000, 0xF000⟩, ⟨"skip-eq-reg", 0x5000, 0xF00F⟩,
   ⟨"load-imm", 0x6000, 0xF000⟩, ⟨"add-imm", 0x7000, 0xF000⟩, ⟨"assign", 0x8000, 0xF00F⟩, ⟨"or", 0x8001, 0xF00F⟩,
   ⟨"and", 0x8002, 0xF00F⟩]

/-- Rows 13 to 23 of R120. -/
def opcodeRowsB : List OpcodeRow :=
  [⟨"xor", 0x8003, 0xF00F⟩, ⟨"add", 0x8004, 0xF00F⟩, ⟨"sub", 0x8005, 0xF00F⟩, ⟨"shr", 0x8006, 0xF00F⟩,
   ⟨"subn", 0x8007, 0xF00F⟩, ⟨"shl", 0x800E, 0xF00F⟩, ⟨"skip-ne-reg", 0x9000, 0xF00F⟩,
   ⟨"load-addr", 0xA000, 0xF000⟩, ⟨"jump-offset", 0xB000, 0xF000⟩, ⟨"rand", 0xC000, 0xF000⟩,
   ⟨"draw", 0xD000, 0xF000⟩]

/-- Rows 24 to 34 of R120. -/
def opcodeRowsC : List OpcodeRow :=
  [⟨"get-delay", 0xF007, 0xF0FF⟩, ⟨"set-delay", 0xF015, 0xF0FF⟩, ⟨"set-sound", 0xF018, 0xF0FF⟩,
   ⟨"add-addr", 0xF01E, 0xF0FF⟩, ⟨"font-addr", 0xF029, 0xF0FF⟩, ⟨"bcd-store", 0xF033, 0xF0FF⟩,
   ⟨"reg-dump", 0xF055, 0xF0FF⟩, ⟨"reg-load", 0xF065, 0xF0FF⟩, ⟨"skip-key", 0xE09E, 0xF0FF⟩,
   ⟨"skip-nkey", 0xE0A1, 0xF0FF⟩, ⟨"wait-key", 0xF00A, 0xF0FF⟩]

/-- The opcode map of R120, all 34 rows. -/
def opcodeTable : List OpcodeRow := opcodeRowsA ++ opcodeRowsB ++ opcodeRowsC

/-- The instruction the decoder reads from the `nbits` low bits of `w`, numbered as spec/opcode_table.json numbers
them: one 16-bit word, laid out in memory high byte first. -/
def decodeTableWord (nbits w : Nat) : Option Instr :=
  let word : Word := BitVec.ofNat 16 (w % 2 ^ nbits)
  match decodeBytes [highByte word, lowByte word] with
  | .ok (i, _) => some i
  | .error _ => none

end Sys2Proof
end

