-- ==== Sys2Proof/Config.lean ====
section
/-! DEFINITION. The fixed parameters of 00_scope.md R9, the domain of the open parameter EDGE_POLICY, and the random
oracle of R10 as a free value. The defaults of EDGE_POLICY and FONT are in Sys2Proof/Machine/Parameters.lean. -/

namespace Sys2Proof.Config

/-- MEM_SIZE: addresses are 0x000 to 0xFFF (00_scope.md R9). -/
abbrev memSize : Nat := 4096

/-- STACK_DEPTH (R9). -/
abbrev stackDepth : Nat := 16

/-- PROGRAM_START (R9): where ROM bytes go and where `pc` starts. -/
abbrev programStart : Nat := 0x200

/-- FONT_BASE (R9). -/
abbrev fontBase : Nat := 0x000

/-- FONT_SIZE (R9). -/
abbrev fontSize : Nat := 80

/-- MAX_ROM (R9): 4096 - 0x200 bytes. -/
abbrev maxRom : Nat := 3584

/-- The domain of the parameter EDGE_POLICY (00_scope.md R10, 45_display.md R502). -/
inductive EdgePolicy where
  /-- Columns modulo 64, rows modulo 32, pixel by pixel. -/
  | wrap
  /-- A pixel past the right or lower edge is dropped. -/
  | clip
deriving DecidableEq, Repr

/-- FREE VALUE. The oracle RNG (00_scope.md R10, 42_alu.md R315): its answer to the n-th call. It has no body, so
nothing can be proved about any answer: a claim holds for every value 0x00 to 0xFF of every call
(notes/assumptions/3.md). -/
opaque randomByte : Nat → Byte

end Sys2Proof.Config
end

