-- ==== Sys2Proof/Machine/Parameters.lean ====
section
/-! DEFINITION. The default settings of the open parameters EDGE_POLICY and FONT (00_scope.md R10). -/

namespace Sys2Proof.Machine

/-- EDGE_POLICY of the machine `exec` and `step` model: the default `Wrap` of 00_scope.md R10 and 45_display.md R502.
DESIGN CHOICE (the spec's decision D7): unsafe for a claim about sprite pixels past an edge; such a claim names the
policy through `execDrawUnder` or `stepUnder` (notes/assumptions/4.md). -/
def edgePolicy : Config.EdgePolicy := .wrap

/-- Glyphs 0 to 7 of 70_reset_and_hazards.md R703. -/
def fontLow : List Byte :=
  [0xF0, 0x90, 0x90, 0x90, 0xF0,  0x20, 0x60, 0x20, 0x20, 0x70,
   0xF0, 0x10, 0xF0, 0x80, 0xF0,  0xF0, 0x10, 0xF0, 0x10, 0xF0,
   0x90, 0x90, 0xF0, 0x10, 0x10,  0xF0, 0x80, 0xF0, 0x10, 0xF0,
   0xF0, 0x80, 0xF0, 0x90, 0xF0,  0xF0, 0x10, 0x20, 0x40, 0x40]

/-- Glyphs 8 to F of R703. -/
def fontHigh : List Byte :=
  [0xF0, 0x90, 0xF0, 0x90, 0xF0,  0xF0, 0x90, 0xF0, 0x10, 0xF0,
   0xF0, 0x90, 0xF0, 0x90, 0x90,  0xE0, 0x90, 0xE0, 0x90, 0xE0,
   0xF0, 0x80, 0x80, 0x80, 0xF0,  0xE0, 0x90, 0x90, 0x90, 0xE0,
   0xF0, 0x80, 0xF0, 0x80, 0xF0,  0xF0, 0x80, 0xF0, 0x80, 0x80]

/-- FONT: the default table of R703. PRESUMED (the spec marks its bytes as general knowledge, D16): unsafe for a claim
about glyph bytes; `resetWith` takes any table (notes/assumptions/5.md). -/
def font : Vector Byte Config.fontSize := ⟨(fontLow ++ fontHigh).toArray, rfl⟩

/-- What memory holds right after reset, and so what an address the list of `State.mem` does not name reads as: FONT at
0x000 to 0x04F, zero elsewhere (10_state.md R53, 70_reset_and_hazards.md R700; notes/assumptions/6.md). -/
def resetByte (a : Nat) : Byte := font.toList.getD (a - Config.fontBase) 0

end Sys2Proof.Machine
end

