-- ==== Sys2Proof/Machine/State.lean ====
section
/-! DEFINITION. The machine state of 10_state.md R30 as plain data, the fault kinds of 60_exceptions.md R601, and the
reset state of R53. -/

namespace Sys2Proof.Machine

/-- The fault kinds of 60_exceptions.md R601. A fault is RECORDED: a step that raises one goes on to a next state with
`status = Faulted` and the kind in the fault record (R604). No step answers `Host.Outcome.fault`, so every machine fault
is safe: it is a state a claim can speak of (notes/assumptions/1.md). -/
inductive Fault where
  /-- Recorded by `step` when the fetched word matches no row of the opcode map (R606). Safe. -/
  | decodeFault
  /-- Recorded by `step` at the fetch bound and by `draw`, `bcd-store`, `reg-dump`, `reg-load`, `skip-key`, `skip-nkey`
  (R607). Safe. -/
  | outOfBounds
  /-- Recorded by `call` when 16 entries are in use (R608). Safe. -/
  | stackOverflow
  /-- Recorded by `return` when no entry is in use (R609). Safe. -/
  | stackUnderflow
  /-- Returned by the host operation `loadRom`; never recorded, never a status (R603, R628). Safe. -/
  | romTooLarge
deriving DecidableEq, Repr

/-- The spec's own cause codes (R601). -/
def Fault.code : Fault → Nat
  | .decodeFault => 1
  | .outOfBounds => 2
  | .stackOverflow => 3
  | .stackUnderflow => 4
  | .romTooLarge => 5

/-- Why the model has no meaning for an instruction. -/
inductive Refusal where
  /-- The arm of `exec` of an instruction without a meaning; no arm answers it. Safe. -/
  | notModelled (mnemonic : String)
deriving DecidableEq, Repr

/-- The record of 60_exceptions.md R602: `word` is none when the fetch bound failed and no word was read. -/
structure FaultRecord where
  kind : Fault
  pc : Word
  word : Option Word
deriving DecidableEq, Repr

/-- The item `status` (10_state.md R49). -/
inductive Status where
  | running
  | awaitingKey (r : Reg)
  | faulted
deriving DecidableEq, Repr

/-- The display: 32 rows of 64 one-bit pixels (10_state.md R45). -/
abbrev Display := Vector (Vector Bool 64) 32

/-- The machine aggregate of 10_state.md R30, item by item, and the counter of oracle calls. -/
structure State where
  /-- Memory: the bytes that differ from their reset contents, in the canonical form `Memory.wf` (R52). -/
  mem : List Host.Cell
  /-- The general registers V0 to VF (R32). -/
  x : Vector Byte 16
  /-- The address register (R40). -/
  I : Word
  /-- The address of the next instruction to fetch (R35). -/
  pc : Word
  /-- The saved return addresses (R41). -/
  stack : Vector Word 16
  /-- How many entries are in use, 0 to 16 (R41, 90_conflicts.md C2). -/
  sp : Fin 17
  /-- The delay timer (R43). -/
  DT : Byte
  /-- The sound timer (R43). -/
  ST : Byte
  /-- The framebuffer (R45). -/
  fb : Display
  /-- One flag a key, true while pressed (R46). -/
  keys : Vector Bool 16
  /-- The redraw flag (R47). -/
  redraw : Bool
  /-- The instruction word of the step in progress (R48). -/
  cur : Word
  /-- Running, waiting for a key, or faulted (R49). -/
  status : Status
  /-- The fault record (R50). -/
  fault : Option FaultRecord
  /-- THE MODEL'S OWN: how many times `rand` has asked the oracle; it picks the free value
  `Config.randomByte rngCalls` (notes/assumptions/3.md). -/
  rngCalls : Nat
deriving DecidableEq, Repr

/-- Every pixel 0. -/
def Display.clear : Display := Vector.replicate 32 (Vector.replicate 64 false)

/-- The machine right after `reset()`: 10_state.md R53, 70_reset_and_hazards.md R700. The zeros of `x`, `I`, `stack`,
`redraw`, `cur` and the `status` are the spec's decision D10: DESIGN CHOICE, unsafe (notes/assumptions/7.md); `rngCalls`
is the model's: DESIGN CHOICE (notes/assumptions/3.md). -/
def State.reset : State where
  mem := []
  x := Vector.replicate 16 0
  I := 0
  pc := BitVec.ofNat 16 Config.programStart
  stack := Vector.replicate 16 0
  sp := 0
  DT := 0
  ST := 0
  fb := Display.clear
  keys := Vector.replicate 16 false
  redraw := false
  cur := 0
  status := .running
  fault := none
  rngCalls := 0

end Sys2Proof.Machine
end

