-- ==== Sys2Proof/Machine/Ops.lean ====
section
/-! DEFINITION. The named operations over memory and state that the meanings share: memory in canonical form, one
accessor and one update per item, the stack controller, taking a fault, and fetch. -/

namespace Sys2Proof.Machine

/-- The outcome of a step. -/
abbrev Outcome := Host.Outcome State Fault Refusal

/-! ## Memory (20_memory.md) -/

/-- `MemRead(a, 1)` (00_scope.md R15), for `a < MEM_SIZE`: every caller checks the bound first. -/
def Memory.read : List Host.Cell → Nat → Byte
  | [], a => resetByte a
  | (k, b) :: m, a => if k = a then b else Memory.read m a

/-- `MemWrite(a, 1, b)` (R15), for `a < MEM_SIZE`: every caller checks the bound first. It keeps the canonical form:
a byte equal to the reset contents is not listed. -/
def Memory.write : List Host.Cell → Nat → Byte → List Host.Cell
  | [], a, b => if b = resetByte a then [] else [(a, b)]
  | (k, c) :: m, a, b =>
    if a < k then (if b = resetByte a then (k, c) :: m else (a, b) :: (k, c) :: m)
    else if a = k then (if b = resetByte a then m else (a, b) :: m)
    else (k, c) :: Memory.write m a b

/-- The canonical form: addresses strictly rising, all below MEM_SIZE, no entry equal to the reset contents. -/
abbrev Memory.wf (m : List Host.Cell) : Prop :=
  m.Pairwise (fun p q => p.1 < q.1) ∧ ∀ c ∈ m, c.1 < Config.memSize ∧ c.2 ≠ resetByte c.1

/-- Bytes written at increasing addresses from `a`. -/
def Memory.writeList : List Host.Cell → Nat → List Byte → List Host.Cell
  | m, _, [] => m
  | m, a, b :: bs => Memory.writeList (Memory.write m a b) (a + 1) bs

namespace State

/-! ## One accessor and one update per item (10_state.md R30) -/

/-- `x[k]` (00_scope.md R13). -/
def reg (s : State) (k : Reg) : Byte := s.x[k.val]

/-- `x[k] <- v` (R13). -/
def setReg (s : State) (k : Reg) (v : Byte) : State := { s with x := s.x.set k.val v }

/-- `MemRead(a, 1)`. -/
def readByte (s : State) (a : Nat) : Byte := Memory.read s.mem a

/-- `MemWrite(a, 1, b)`. -/
def writeByte (s : State) (a : Nat) (b : Byte) : State := { s with mem := Memory.write s.mem a b }

/-- `I <- v` (10_state.md R40). -/
def setI (s : State) (v : Word) : State := { s with I := v }

/-- `pc <- v` (R35). -/
def setPc (s : State) (v : Word) : State := { s with pc := v }

/-- `DT <- v` (R43). -/
def setDT (s : State) (v : Byte) : State := { s with DT := v }

/-- `ST <- v` (R43). -/
def setST (s : State) (v : Byte) : State := { s with ST := v }

/-- `fb[c, r]` (R45). -/
def pixel (s : State) (c : Col) (r : Row) : Bool := (s.fb[r.val])[c.val]

/-- `fb[c, r] <- b` (R45). -/
def setPixel (s : State) (c : Col) (r : Row) (b : Bool) : State :=
  { s with fb := s.fb.set r.val ((s.fb[r.val]).set c.val b) }

/-- Every pixel 0 (45_display.md R501). -/
def clearPixels (s : State) : State := { s with fb := Display.clear }

/-- `keys[k]` (R46). -/
def key (s : State) (k : Key) : Bool := s.keys[k.val]

/-- `keys[k] <- b` (R46): the host's alone. -/
def setKey (s : State) (k : Key) (b : Bool) : State := { s with keys := s.keys.set k.val b }

/-- `redraw <- b` (R47). -/
def setRedraw (s : State) (b : Bool) : State := { s with redraw := b }

/-- `cur <- w` (R48). -/
def setCur (s : State) (w : Word) : State := { s with cur := w }

/-- `status <- v` (R49). -/
def setStatus (s : State) (v : Status) : State := { s with status := v }

/-- `stack[k]` (R41). -/
def entry (s : State) (k : Fin 16) : Word := s.stack[k.val]

/-- The oracle has answered once more. -/
def countRng (s : State) : State := { s with rngCalls := s.rngCalls + 1 }

/-! ## The program counter -/

/-- `pc <- pc + 2`, the advance of every instruction that does not say otherwise (R36); modulo 2^16 (R37). -/
def advance (s : State) : State := s.setPc (s.pc + 2)

/-- A skip: `pc + 4` if the condition holds, else `pc + 2` (41_skip.md R250). -/
def skipIf (s : State) (cond : Bool) : State := s.setPc (if cond then s.pc + 4 else s.pc + 2)

/-! ## Taking a fault (60_exceptions.md R604)

There is no return from a fault, no handler and no vector (R600, R611): only the host's `reset` leaves `Faulted`. -/

/-- Fault entry, the one shared operation: `status <- Faulted`, `fault <- (kind, pc, word)`, nothing else (00_scope.md
R16, 60_exceptions.md R602, R604). -/
def enterFault (s : State) (kind : Fault) (word : Option Word) : State :=
  { s with status := .faulted, fault := some { kind := kind, pc := s.pc, word := word } }

/-- `raise E(pc, cur)`: a fault of the instruction in progress; the word is `cur` (R602). -/
def raise (s : State) (kind : Fault) : State := s.enterFault kind (some s.cur)

/-! ## The stack controller (40_control_flow.md R202) -/

/-- `Push(v)`; none is the overflow check, made before any write. -/
def push (s : State) (v : Word) : Option State :=
  if h : s.sp.val < 16 then
    some { s with stack := s.stack.set s.sp.val v, sp := ⟨s.sp.val + 1, by omega⟩ }
  else none

/-- `Pop()`: the popped value and the state after; none is the underflow check. The entry keeps its value (10_state.md
R42). -/
def pop (s : State) : Option (Word × State) :=
  if h : s.sp.val = 0 then none
  else
    have := s.sp.isLt
    some (s.stack[s.sp.val - 1], { s with sp := ⟨s.sp.val - 1, by omega⟩ })

/-! ## Fetch (30_encoding.md R101, R102) -/

/-- The word at `pc`, big-endian; none when `pc + 1 >= 4096`. It changes no state. -/
def fetchWord (s : State) : Option Word :=
  if s.pc.toNat + 1 < Config.memSize then
    some (wordOfBytes (s.readByte s.pc.toNat) (s.readByte (s.pc.toNat + 1)))
  else none

end State

/-- The bound check of 20_memory.md R76 and 43_index_memory.md R400: the effect happens when the last address accessed is
below MEM_SIZE; otherwise `OutOfBounds` is raised from the state before it. -/
def withinMemory (last : Nat) (s effect : State) : Outcome :=
  if last < Config.memSize then .next effect else .next (s.raise .outOfBounds)

end Sys2Proof.Machine
end

