-- ==== Sys2Proof/Machine/Operands.lean ====
section
/-! DEFINITION. Operand forms: immediates (30_encoding.md R105), register blocks, the effective address (43_index_memory.md
R400), key indices (41_skip.md R255), sprite bits and pixel targets (45_display.md R502). -/

namespace Sys2Proof.Machine

/-- `zext_16(NNN)` (30_encoding.md R105). -/
def zextNNN (a : Addr12) : Word := a.setWidth 16

/-- `zext_16(v)` of a register or NN (R105). -/
def zextByte (v : Byte) : Word := v.setWidth 16

/-- The effective address of the `k`-th byte accessed: `I + k` on unbounded naturals (43_index_memory.md R400). -/
def effAddr (s : State) (k : Nat) : Nat := s.I.toNat + k

/-- The block of registers V0 to Vx, in rising order: `0..=X` (30_encoding.md R105). -/
def regsUpTo (x : Reg) : List Reg := (List.finRange 16).filter (fun k => k ≤ x)

/-- The key a register names; none when the value is above 15 (41_skip.md R255, R256). -/
def keyOf (v : Byte) : Option Key := if h : v.toNat < 16 then some ⟨v.toNat, h⟩ else none

/-- `select_key(keys)`: the smallest pressed key; none when no key is pressed (44_timers_keys.md R455, R457). -/
def selectKey (s : State) : Option Key := (List.finRange 16).find? (fun k => s.key k)

/-- A key number as the 8-bit value 0x00 to 0x0F that is stored (R457). -/
def keyByte (k : Key) : Byte := BitVec.ofNat 8 k.val

/-- The three decimal digits of `v` (43_index_memory.md R404), as bytes. -/
def hundreds (v : Byte) : Byte := BitVec.ofNat 8 (v.toNat / 100)

/-- `(v / 10) mod 10` (R404). -/
def tens (v : Byte) : Byte := BitVec.ofNat 8 (v.toNat / 10 % 10)

/-- `v mod 10` (R404). -/
def units (v : Byte) : Byte := BitVec.ofNat 8 (v.toNat % 10)

/-- The sprite bit of column `j` of a row byte: bit `7 - j`, most significant first (45_display.md R502). -/
def spriteBit (row : Byte) (j : Nat) : Bool := row.getLsbD (7 - j)

/-- The target pixel of column `c` and row `r`, both counted from the display's corner before any reduction (R502). -/
def target (p : Config.EdgePolicy) (c r : Nat) : Option (Col × Row) :=
  match p with
  | .wrap => some (Fin.ofNat 64 c, Fin.ofNat 32 r)
  | .clip => if h : c < 64 ∧ r < 32 then some (⟨c, h.1⟩, ⟨r, h.2⟩) else none

end Sys2Proof.Machine
end

