-- ==== Sys2Proof/Machine/TimersKeys.lean ====
section
/-! DEFINITION. Timer moves and block-on-keypress (44_timers_keys.md R450 to R457). -/

namespace Sys2Proof.Machine

/-- Fx07 `get-delay` (R451). -/
def execGetDelay (x : Reg) (s : State) : Outcome := .next (s.setReg x s.DT).advance

/-- Fx15 `set-delay` (R452). -/
def execSetDelay (x : Reg) (s : State) : Outcome := .next (s.setDT (s.reg x)).advance

/-- Fx18 `set-sound` (R453). -/
def execSetSound (x : Reg) (s : State) : Outcome := .next (s.setST (s.reg x)).advance

/-- `x[r] <- select_key(keys); pc <- pc + 2` (R455, R456). -/
def storeKey (s : State) (r : Reg) (k : Key) : State := (s.setReg r (keyByte k)).advance

/-- Fx0A `wait-key` (R455): completes if a key is pressed, else waits with `pc` unchanged. -/
def execWaitKey (x : Reg) (s : State) : Outcome :=
  match selectKey s with
  | some k => .next (storeKey s x k)
  | none => .next (s.setStatus (.awaitingKey x))

/-- `wait_poll(r)` (R456): a step taken while waiting. -/
def waitPoll (r : Reg) (s : State) : State :=
  match selectKey s with
  | some k => (storeKey s r k).setStatus .running
  | none => s

end Sys2Proof.Machine
end

