-- ==== Sys2Proof/Machine/Cycle.lean ====
section
/-! DEFINITION. The fetch-decode-execute engine of 30_encoding.md R130, over the `execute` it is given. -/

namespace Sys2Proof.Machine

/-- Decode and execute the fetched word `w`: `cur <- w`, then the instruction, or `raise DecodeFault(pc, w)` (R107, R130,
60_exceptions.md R606). -/
def runWord (execute : Instr → State → Outcome) (w : Word) (s : State) : Outcome :=
  match decodeWord w with
  | .ok i => execute i (s.setCur w)
  | .error _ => .next ((s.setCur w).raise .decodeFault)

/-- `step()` of R130: nothing in `Faulted` (60_exceptions.md R605), a poll in `AwaitingKey(r)` (44_timers_keys.md R456),
otherwise fetch (with the bound of R102, whose record has no word), decode and execute. -/
def stepWith (execute : Instr → State → Outcome) (s : State) : Outcome :=
  match s.status with
  | .faulted => .next s
  | .awaitingKey r => .next (waitPoll r s)
  | .running =>
    match s.fetchWord with
    | some w => runWord execute w s
    | none => .next (s.enterFault .outOfBounds none)

end Sys2Proof.Machine
end

