-- ==== Sys2Proof/Machine/Flags.lean ====
section
/-! DEFINITION. The flag computations of 10_state.md R39 and 42_alu.md R300, on unbounded naturals (00_scope.md R12). -/

namespace Sys2Proof.Machine

/-- A flag as the byte VF takes. -/
def flagByte (b : Bool) : Byte := if b then 1 else 0

/-- Carry of an addition: the unbounded sum exceeds 255 (R300). -/
def carry (a b : Byte) : Byte := flagByte (decide (a.toNat + b.toNat > 255))

/-- No borrow of `a - b`: the minuend is at least the subtrahend (R300). -/
def noBorrow (a b : Byte) : Byte := flagByte (decide (a.toNat ≥ b.toNat))

/-- `a & 1`, the flag of `shr` (42_alu.md R311). -/
def lowBit (a : Byte) : Byte := a &&& 1

/-- `a >> 7`, the flag of `shl` (R313). -/
def highBit (a : Byte) : Byte := a >>> 7

/-- `x[15] <- f`. -/
def State.setFlag (s : State) (f : Byte) : State := s.setReg VF f

end Sys2Proof.Machine
end

