-- ==== Sys2Proof/Machine/Alu.lean ====
section
/-! DEFINITION. Register loads and the 8-bit ALU (42_alu.md R300 to R315). Writes happen in the order the spec states
them, so a flag and a result that meet in VF are settled by that order (R301). -/

namespace Sys2Proof.Machine

/-- `x[X] <- v; pc <- pc + 2`: the instructions that touch no flag (R302). -/
def writeResult (s : State) (x : Reg) (v : Byte) : State := (s.setReg x v).advance

/-- `x[X] <- v; x[15] <- f; pc <- pc + 2`: with X = 0xF the flag remains (R301). -/
def writeThenFlag (s : State) (x : Reg) (v f : Byte) : State := ((s.setReg x v).setFlag f).advance

/-- `x[15] <- f; x[X] <- op(x[X]); pc <- pc + 2`: the shift reads `x[X]` after the flag is written (R301). -/
def flagThenShift (s : State) (x : Reg) (f : Byte) (op : Byte → Byte) : State :=
  let t := s.setFlag f
  (t.setReg x (op (t.reg x))).advance

/-- 6xnn `load-imm` (R303). -/
def execLoadImm (x : Reg) (nn : Byte) (s : State) : Outcome := .next (writeResult s x nn)

/-- 7xnn `add-imm` (R304): modulo 256, no flag. -/
def execAddImm (x : Reg) (nn : Byte) (s : State) : Outcome := .next (writeResult s x (s.reg x + nn))

/-- 8xy0 `assign` (R305). -/
def execAssign (x y : Reg) (s : State) : Outcome := .next (writeResult s x (s.reg y))

/-- 8xy1 `or` (R306). -/
def execOr (x y : Reg) (s : State) : Outcome := .next (writeResult s x (s.reg x ||| s.reg y))

/-- 8xy2 `and` (R307). -/
def execAnd (x y : Reg) (s : State) : Outcome := .next (writeResult s x (s.reg x &&& s.reg y))

/-- 8xy3 `xor` (R308). -/
def execXor (x y : Reg) (s : State) : Outcome := .next (writeResult s x (s.reg x ^^^ s.reg y))

/-- 8xy4 `add` (R309). -/
def execAdd (x y : Reg) (s : State) : Outcome :=
  .next (writeThenFlag s x (s.reg x + s.reg y) (carry (s.reg x) (s.reg y)))

/-- 8xy5 `sub` (R310): `Vx - Vy`. -/
def execSub (x y : Reg) (s : State) : Outcome :=
  .next (writeThenFlag s x (s.reg x - s.reg y) (noBorrow (s.reg x) (s.reg y)))

/-- 8xy6 `shr` (R311): `Vy` is not read. -/
def execShr (x _y : Reg) (s : State) : Outcome :=
  .next (flagThenShift s x (lowBit (s.reg x)) (fun v => v >>> 1))

/-- 8xy7 `subn` (R312): `Vy - Vx`. -/
def execSubn (x y : Reg) (s : State) : Outcome :=
  .next (writeThenFlag s x (s.reg y - s.reg x) (noBorrow (s.reg y) (s.reg x)))

/-- 8xyE `shl` (R313): `Vy` is not read. -/
def execShl (x _y : Reg) (s : State) : Outcome :=
  .next (flagThenShift s x (highBit (s.reg x)) (fun v => v <<< 1))

/-- Cxnn `rand` (R314) when the oracle answers `r`. -/
def randUnder (r : Byte) (x : Reg) (nn : Byte) (s : State) : State := (writeResult s x (r &&& nn)).countRng

/-- Cxnn `rand` (R314): `draw_random()` is the free value of this call (R315). -/
def execRand (x : Reg) (nn : Byte) (s : State) : Outcome := .next (randUnder (Config.randomByte s.rngCalls) x nn s)

end Sys2Proof.Machine
end

