-- ==== Sys2Proof/Machine/Control.lean ====
section
/-! DEFINITION. Control transfer through `pc` and the stack (40_control_flow.md R203 to R206). -/

namespace Sys2Proof.Machine

/-- 00EE `return` (R203): `a <- Pop(); pc <- a + 2`; StackUnderflow when nothing is saved. -/
def execReturn (s : State) : Outcome :=
  match s.pop with
  | some (a, t) => .next (t.setPc (a + 2))
  | none => .next (s.raise .stackUnderflow)

/-- 1nnn `jump` (R204). -/
def execJump (nnn : Addr12) (s : State) : Outcome := .next (s.setPc (zextNNN nnn))

/-- 2nnn `call` (R205): the pushed value is this instruction's own address; StackOverflow when 16 are saved. -/
def execCall (nnn : Addr12) (s : State) : Outcome :=
  match s.push s.pc with
  | some t => .next (t.setPc (zextNNN nnn))
  | none => .next (s.raise .stackOverflow)

/-- Bnnn `jump-offset` (R206): `pc <- V0 + NNN + 2`. -/
def execJumpOffset (nnn : Addr12) (s : State) : Outcome :=
  .next (s.setPc (zextByte (s.reg 0) + zextNNN nnn + 2))

end Sys2Proof.Machine
end

