-- ==== Sys2Proof/Machine/Display.lean ====
section
/-! DEFINITION. The framebuffer and the sprite-draw unit (45_display.md R500 to R503). -/

namespace Sys2Proof.Machine

/-- 00E0 `clear-screen` (R501). -/
def execClearScreen (s : State) : Outcome := .next (s.clearPixels.setRedraw true).advance

/-- One set sprite bit on its target pixel: exclusive or, and VF records a collision (R503). -/
def xorPixel (s : State) (c : Col) (r : Row) : State :=
  if s.pixel c r then (s.setFlag 1).setPixel c r false else s.setPixel c r true

/-- The sprite bit of column `j` of a row byte drawn at column `ox + j` of display row `y` (R502, R503). -/
def drawBit (p : Config.EdgePolicy) (ox y : Nat) (row : Byte) (s : State) (j : Nat) : State :=
  if spriteBit row j then
    match target p (ox + j) y with
    | some (c, r) => xorPixel s c r
    | none => s
  else s

/-- The eight columns of one sprite row, left to right (R503). -/
def drawRow (p : Config.EdgePolicy) (ox y : Nat) (row : Byte) (s : State) : State :=
  (List.range 8).foldl (drawBit p ox y row) s

/-- The `n` rows of the sprite at `I`, drawn from origin `(ox, oy)`, top to bottom (R503). -/
def drawSprite (p : Config.EdgePolicy) (ox oy n : Nat) (s : State) : State :=
  (List.range n).foldl (fun t i => drawRow p ox (oy + i) (t.readByte (effAddr t i)) t) s

/-- The effect of Dxyn once its sprite is readable: the origin is read before VF is cleared (R503). -/
def drawEffect (p : Config.EdgePolicy) (x y : Reg) (n : Nat) (s : State) : State :=
  ((drawSprite p (s.reg x).toNat (s.reg y).toNat n (s.setFlag 0)).setRedraw true).advance

/-- Dxyn `draw` (R503) under the edge policy `p`: OutOfBounds when `N >= 1` and `I + N - 1 >= 4096`. -/
def execDrawUnder (p : Config.EdgePolicy) (x y : Reg) (n : Nat) (s : State) : Outcome :=
  if n = 0 then .next (drawEffect p x y n s)
  else withinMemory (effAddr s (n - 1)) s (drawEffect p x y n s)

/-- Dxyn `draw` (R503) of this machine. -/
def execDraw (x y : Reg) (n : Nat) (s : State) : Outcome := execDrawUnder edgePolicy x y n s

end Sys2Proof.Machine
end

