-- ==== Sys2Proof/Machine/IndexMemory.lean ====
section
/-! DEFINITION. The address register and the instructions that move bytes through it (43_index_memory.md R400 to R406). -/

namespace Sys2Proof.Machine

/-- Annn `load-addr` (R401). -/
def execLoadAddr (nnn : Addr12) (s : State) : Outcome := .next (s.setI (zextNNN nnn)).advance

/-- Fx1E `add-addr` (R402): modulo 2^16, VF unchanged. -/
def execAddAddr (x : Reg) (s : State) : Outcome := .next (s.setI (s.I + zextByte (s.reg x))).advance

/-- Fx29 `font-addr` (R403): the whole byte times 5. -/
def execFontAddr (x : Reg) (s : State) : Outcome := .next (s.setI (zextByte (s.reg x) * 5)).advance

/-- The three stores of `bcd-store` (R404), in its order. -/
def storeDigits (s : State) (v : Byte) : State :=
  ((s.writeByte (effAddr s 0) (hundreds v)).writeByte (effAddr s 1) (tens v)).writeByte (effAddr s 2) (units v)

/-- Fx33 `bcd-store` (R404): OutOfBounds when `I + 2 >= 4096`; `I` unchanged. -/
def execBcdStore (x : Reg) (s : State) : Outcome :=
  withinMemory (effAddr s 2) s (storeDigits s (s.reg x)).advance

/-- `for k in 0..=X: MemWrite(I + k, 1, x[k])` (R405). -/
def dumpRegs (s : State) (ks : List Reg) : State :=
  ks.foldl (fun t k => t.writeByte (effAddr t k.val) (t.reg k)) s

/-- `for k in 0..=X: x[k] <- MemRead(I + k, 1)` (R406). -/
def loadRegs (s : State) (ks : List Reg) : State :=
  ks.foldl (fun t k => t.setReg k (t.readByte (effAddr t k.val))) s

/-- `I <- (I + X + 1) mod 2^16` (R405, R406). -/
def bumpI (s : State) (x : Reg) : State := s.setI (s.I + BitVec.ofNat 16 (x.val + 1))

/-- Fx55 `reg-dump` (R405): OutOfBounds when `I + X >= 4096`. -/
def execRegDump (x : Reg) (s : State) : Outcome :=
  withinMemory (effAddr s x.val) s (bumpI (dumpRegs s (regsUpTo x)) x).advance

/-- Fx65 `reg-load` (R406): OutOfBounds when `I + X >= 4096`. -/
def execRegLoad (x : Reg) (s : State) : Outcome :=
  withinMemory (effAddr s x.val) s (bumpI (loadRegs s (regsUpTo x)) x).advance

end Sys2Proof.Machine
end

