-- ==== Sys2Proof/Machine/Skip.lean ====
section
/-! DEFINITION. Conditional skips (41_skip.md R250 to R256). -/

namespace Sys2Proof.Machine

/-- 3xnn `skip-eq-imm` (R251). -/
def execSkipEqImm (x : Reg) (nn : Byte) (s : State) : Outcome := .next (s.skipIf (s.reg x == nn))

/-- 4xnn `skip-ne-imm` (R252). -/
def execSkipNeImm (x : Reg) (nn : Byte) (s : State) : Outcome := .next (s.skipIf (s.reg x != nn))

/-- 5xy0 `skip-eq-reg` (R253). -/
def execSkipEqReg (x y : Reg) (s : State) : Outcome := .next (s.skipIf (s.reg x == s.reg y))

/-- 9xy0 `skip-ne-reg` (R254). -/
def execSkipNeReg (x y : Reg) (s : State) : Outcome := .next (s.skipIf (s.reg x != s.reg y))

/-- Ex9E `skip-key` (R255): OutOfBounds when the register names no key. -/
def execSkipKey (x : Reg) (s : State) : Outcome :=
  match keyOf (s.reg x) with
  | some k => .next (s.skipIf (s.key k))
  | none => .next (s.raise .outOfBounds)

/-- ExA1 `skip-nkey` (R256): OutOfBounds when the register names no key. -/
def execSkipNkey (x : Reg) (s : State) : Outcome :=
  match keyOf (s.reg x) with
  | some k => .next (s.skipIf (!s.key k))
  | none => .next (s.raise .outOfBounds)

end Sys2Proof.Machine
end

