-- ==== Sys2Proof/Machine/Dispatch.lean ====
section
/-! DEFINITION. `execute(ins)` of 30_encoding.md R130: one arm per constructor of `Instr`. -/

namespace Sys2Proof.Machine

def exec (i : Instr) (s : State) : Host.Outcome State Fault Refusal :=
  match i with
  | .clearScreen => Sys2Proof.Machine.execClearScreen s
  | .ret => Sys2Proof.Machine.execReturn s
  | .jump nnn => Sys2Proof.Machine.execJump nnn s
  | .call nnn => Sys2Proof.Machine.execCall nnn s
  | .skipEqImm x nn => Sys2Proof.Machine.execSkipEqImm x nn s
  | .skipNeImm x nn => Sys2Proof.Machine.execSkipNeImm x nn s
  | .skipEqReg x y => Sys2Proof.Machine.execSkipEqReg x y s
  | .loadImm x nn => Sys2Proof.Machine.execLoadImm x nn s
  | .addImm x nn => Sys2Proof.Machine.execAddImm x nn s
  | .assign x y => Sys2Proof.Machine.execAssign x y s
  | .or x y => Sys2Proof.Machine.execOr x y s
  | .and x y => Sys2Proof.Machine.execAnd x y s
  | .xor x y => Sys2Proof.Machine.execXor x y s
  | .add x y => Sys2Proof.Machine.execAdd x y s
  | .sub x y => Sys2Proof.Machine.execSub x y s
  | .shr x y => Sys2Proof.Machine.execShr x y s
  | .subn x y => Sys2Proof.Machine.execSubn x y s
  | .shl x y => Sys2Proof.Machine.execShl x y s
  | .skipNeReg x y => Sys2Proof.Machine.execSkipNeReg x y s
  | .loadAddr nnn => Sys2Proof.Machine.execLoadAddr nnn s
  | .jumpOffset nnn => Sys2Proof.Machine.execJumpOffset nnn s
  | .rand x nn => Sys2Proof.Machine.execRand x nn s
  | .draw x y n => Sys2Proof.Machine.execDraw x y n s
  | .getDelay x => Sys2Proof.Machine.execGetDelay x s
  | .setDelay x => Sys2Proof.Machine.execSetDelay x s
  | .setSound x => Sys2Proof.Machine.execSetSound x s
  | .addAddr x => Sys2Proof.Machine.execAddAddr x s
  | .fontAddr x => Sys2Proof.Machine.execFontAddr x s
  | .bcdStore x => Sys2Proof.Machine.execBcdStore x s
  | .regDump x => Sys2Proof.Machine.execRegDump x s
  | .regLoad x => Sys2Proof.Machine.execRegLoad x s
  | .skipKey x => Sys2Proof.Machine.execSkipKey x s
  | .skipNkey x => Sys2Proof.Machine.execSkipNkey x s
  | .waitKey x => Sys2Proof.Machine.execWaitKey x s

end Sys2Proof.Machine
end

