-- ==== Sys2Proof/Machine/Step.lean ====
section
/-! DEFINITION. The machine's step, the same step under either edge policy, and the placing of one instruction where the
next step fetches. -/

namespace Sys2Proof.Machine

/-- One call of `step()` (30_encoding.md R130). -/
def step (s : State) : Host.Outcome State Fault Refusal := stepWith exec s

/-- `exec` with the parameter EDGE_POLICY given (00_scope.md R10): only `draw` depends on it (45_display.md R502). -/
def execUnder (p : Config.EdgePolicy) (i : Instr) (s : State) : Outcome :=
  match i with
  | .draw x y n => execDrawUnder p x y n s
  | other => exec other s

/-- One step of the machine whose EDGE_POLICY is `p`. -/
def stepUnder (p : Config.EdgePolicy) (s : State) : Outcome := stepWith (execUnder p) s

/-- `s` made ready to run the instruction whose bits are the low `nbits` of `w`: its two bytes, high byte first, at `pc`;
`status` Running and no fault record, since only a running machine fetches; and `pc` moved to PROGRAM_START where the
fetch bound shuts out the old one (notes/assumptions/15.md). It stands for `load_rom`. -/
def State.withFetchWord (s : State) (nbits w : Nat) : State :=
  let word : Word := BitVec.ofNat 16 (w % 2 ^ nbits)
  let at_ : Word := if s.pc.toNat + 1 < Config.memSize then s.pc else BitVec.ofNat 16 Config.programStart
  { s with
    mem := Memory.writeList s.mem at_.toNat [highByte word, lowByte word]
    pc := at_
    status := .running
    fault := none }

end Sys2Proof.Machine
end

