-- ==== Sys2Proof/Machine/HostOps.lean ====
section
/-! DEFINITION. The host interface (60_exceptions.md R620 to R632, 70_reset_and_hazards.md R700 to R708): every operation
but `step`, each one atomic transition of the machine (R631). -/

namespace Sys2Proof.Machine

/-- `DT - 1` or `ST - 1` with floor 0 (R621). -/
def countDown (t : Byte) : Byte := if t.toNat > 0 then t - 1 else 0

/-- `tick_timers()` (R621), in every status. -/
def tickTimers (s : State) : State := (s.setDT (countDown s.DT)).setST (countDown s.ST)

/-- `clear_redraw()` (R623). -/
def clearRedraw (s : State) : State := s.setRedraw false

/-- `read_display()` (R624): 2048 bytes 0 or 1, the pixel `fb[c, r]` at index `r * 64 + c`. -/
def readDisplay (s : State) : List Byte :=
  (List.finRange 32).flatMap (fun r => (List.finRange 64).map (fun c => if s.pixel c r then 1 else 0))

/-- `sound_on()` (R626): `ST > 0`. -/
def soundOn (s : State) : Bool := decide (s.ST.toNat > 0)

/-- `load_rom(bytes)` (70_reset_and_hazards.md R706, R707): the machine after it, and the error if it was rejected. -/
def loadRom (bytes : List Byte) (s : State) : State × Option Fault :=
  if bytes.length > Config.maxRom then (s, some .romTooLarge)
  else ({ s with mem := Memory.writeList s.mem Config.programStart bytes }, none)

/-- `reset()` with the font table given (R700, R703): whatever the state before (R701), every item takes its reset value
and the 80 bytes stand at FONT_BASE. -/
def resetWith (table : Vector Byte Config.fontSize) : State :=
  { State.reset with mem := Memory.writeList State.reset.mem Config.fontBase table.toList }

/-- `reset()` of the machine in any state (R700, R701): every item of the spec takes its reset value. The oracle is not an
item of it and does not start over, so the model's count of its calls goes on (notes/assumptions/3.md). -/
def resetMachine (s : State) : State := { State.reset with rngCalls := s.rngCalls }

/-- The host operations of R620, `step` apart. -/
inductive HostOp where
  | tickTimers
  | setKey (k : Key) (pressed : Bool)
  | clearRedraw
  | readDisplay
  | readRedraw
  | readTimers
  | soundOn
  | loadRom (bytes : List Byte)
  | reset
  | readStatus
deriving DecidableEq, Repr

/-- What a host operation returns. -/
inductive HostReply where
  | done
  | rejected (error : Fault)
  | display (pixels : List Byte)
  | flag (b : Bool)
  | timers (delay sound : Byte)
  | status (status : Status) (record : Option FaultRecord)
deriving DecidableEq, Repr

/-- The effect and the answer of one host operation (R620). -/
def hostOp (op : HostOp) (s : State) : State × HostReply :=
  match op with
  | .tickTimers => (tickTimers s, .done)
  | .setKey k b => (s.setKey k b, .done)
  | .clearRedraw => (clearRedraw s, .done)
  | .readDisplay => (s, .display (readDisplay s))
  | .readRedraw => (s, .flag s.redraw)
  | .readTimers => (s, .timers s.DT s.ST)
  | .soundOn => (s, .flag (soundOn s))
  | .loadRom bytes =>
    match loadRom bytes s with
    | (t, none) => (t, .done)
    | (t, some e) => (t, .rejected e)
  | .reset => (resetMachine s, .done)
  | .readStatus => (s, .status s.status s.fault)

end Sys2Proof.Machine
end

