-- ==== Sys2Proof/Safety.lean ====
section
/-! DEFINITION. The terms claims are stated in: one name for each item of the state, what it is for a transition to change
only some items, the invariant of the machine, its transitions, and what a run without a fault is. -/

namespace Sys2Proof

open Machine

/-- The items of 10_state.md R30, one by one: each register, memory byte, stack entry, pixel and key on its own. -/
inductive Item where
  | reg (k : Reg)
  | memByte (a : Nat)
  | I
  | pc
  | entry (k : Fin 16)
  | sp
  | DT
  | ST
  | pixel (c : Col) (r : Row)
  | key (k : Key)
  | redraw
  | cur
  | status
  | fault
  | rngCalls
deriving DecidableEq, Repr

/-- The item has the same value in both states. -/
def Item.same (it : Item) (s t : State) : Prop :=
  match it with
  | .reg k => t.reg k = s.reg k
  | .memByte a => t.readByte a = s.readByte a
  | .I => t.I = s.I
  | .pc => t.pc = s.pc
  | .entry k => t.entry k = s.entry k
  | .sp => t.sp = s.sp
  | .DT => t.DT = s.DT
  | .ST => t.ST = s.ST
  | .pixel c r => t.pixel c r = s.pixel c r
  | .key k => t.key k = s.key k
  | .redraw => t.redraw = s.redraw
  | .cur => t.cur = s.cur
  | .status => t.status = s.status
  | .fault => t.fault = s.fault
  | .rngCalls => t.rngCalls = s.rngCalls

/-- The frame: every item outside `written` keeps its value from `s` to `t`. -/
def OnlyChanges (written : Item → Prop) (s t : State) : Prop := ∀ it : Item, ¬ written it → it.same s t

/-- `t` is `s` after fault entry with this kind and word: the status and the record, and nothing else (60_exceptions.md
R602, R604). -/
def TakesFault (kind : Fault) (word : Option Word) (s t : State) : Prop :=
  t.status = .faulted ∧ t.fault = some { kind := kind, pc := s.pc, word := word } ∧
    OnlyChanges (fun it => it = .status ∨ it = .fault) s t

/-- The invariant of the machine: what holds of every state a run reaches. -/
structure Inv (s : State) : Prop where
  /-- Memory is in its canonical form. -/
  memory : Memory.wf s.mem
  /-- The record is there exactly in `Faulted` (10_state.md R50). -/
  record : s.fault.isSome = true ↔ s.status = .faulted
  /-- `pc` never passes the largest target, 0x1100 (10_state.md R37, 40_control_flow.md R206). -/
  counter : s.pc.toNat ≤ 0x1100
  /-- A saved address is one a `call` was fetched from (40_control_flow.md R203). -/
  saved : ∀ k : Fin 16, k.val < s.sp.val → (s.entry k).toNat ≤ 0xFFE
  /-- While waiting, `pc` holds the address of a fetched `wait-key` (44_timers_keys.md R455). -/
  waiting : ∀ r, s.status = .awaitingKey r → s.pc.toNat ≤ 0xFFE
  /-- A record names the current `pc`, its kind is one a step raises, and its word is missing only for a fetch past the
  end of memory (60_exceptions.md R602, R603). -/
  named : ∀ f, s.fault = some f →
    f.pc = s.pc ∧ f.kind ≠ .romTooLarge ∧ (f.word = none → f.kind = .outOfBounds ∧ s.pc.toNat + 1 ≥ Config.memSize)

/-- One transition of the machine: a step of the core or one host operation, whole (60_exceptions.md R631). -/
inductive Transition (s t : State) : Prop where
  | step (h : step s = .next t)
  | host (op : HostOp) (h : t = (hostOp op s).1)

/-- The states a driver can bring the machine to from reset, with any host operations between steps (R631). -/
inductive Reachable : State → Prop where
  | reset : Reachable State.reset
  | move {s t : State} (from_ : Reachable s) (h : Transition s t) : Reachable t

/-- A state the run can go on from: no fault has been taken (60_exceptions.md R605). -/
def NotFaulted (s : State) : Prop := s.status ≠ .faulted

/-- The sprite of `n` rows at `I`, drawn from origin `(ox, oy)` under policy `p`, has a set bit whose target is the pixel
`(c, r)` (45_display.md R502). -/
def SpriteCovers (p : Config.EdgePolicy) (s : State) (ox oy n : Nat) (c : Col) (r : Row) : Prop :=
  ∃ i j : Nat, i < n ∧ j < 8 ∧ spriteBit (s.readByte (effAddr s i)) j = true ∧ target p (ox + j) (oy + i) = some (c, r)

/-- Every word of the pattern decodes to the instruction its fields give (30_encoding.md R104, R120). -/
def Encodes (mask pattern : Word) (instr : Word → Instr) : Prop :=
  ∀ w : Word, w &&& mask = pattern → decodeWord w = .ok (instr w)

/-- The items a fault writes (60_exceptions.md R604). -/
def FaultItem (it : Item) : Prop := it = .status ∨ it = .fault

/-- A memory byte of the `count` bytes at `I` (43_index_memory.md R400). -/
def ByteAtI (s : State) (count : Nat) (it : Item) : Prop := ∃ k, k < count ∧ it = .memByte (effAddr s k)

/-- Which items an instruction may write, beside `pc`, when executed from `s`: the tables of 10_state.md R34, R36, R39 to
R43, R45 to R47 and 20_memory.md R77, and the fault items where the instruction has a fault (60_exceptions.md R607 to
R609). -/
def MayWrite (i : Instr) (s : State) (it : Item) : Prop :=
  it = .pc ∨
    match i with
    | .clearScreen => it = .redraw ∨ ∃ c r, it = .pixel c r
    | .ret => it = .sp ∨ FaultItem it
    | .jump _ => False
    | .call _ => it = .sp ∨ (∃ k : Fin 16, k.val = s.sp.val ∧ it = .entry k) ∨ FaultItem it
    | .skipEqImm _ _ => False
    | .skipNeImm _ _ => False
    | .skipEqReg _ _ => False
    | .loadImm x _ => it = .reg x
    | .addImm x _ => it = .reg x
    | .assign x _ => it = .reg x
    | .or x _ => it = .reg x
    | .and x _ => it = .reg x
    | .xor x _ => it = .reg x
    | .add x _ => it = .reg x ∨ it = .reg VF
    | .sub x _ => it = .reg x ∨ it = .reg VF
    | .shr x _ => it = .reg x ∨ it = .reg VF
    | .subn x _ => it = .reg x ∨ it = .reg VF
    | .shl x _ => it = .reg x ∨ it = .reg VF
    | .skipNeReg _ _ => False
    | .loadAddr _ => it = .I
    | .jumpOffset _ => False
    | .rand x _ => it = .reg x ∨ it = .rngCalls
    | .draw _ _ _ => it = .reg VF ∨ it = .redraw ∨ (∃ c r, it = .pixel c r) ∨ FaultItem it
    | .getDelay x => it = .reg x
    | .setDelay _ => it = .DT
    | .setSound _ => it = .ST
    | .addAddr _ => it = .I
    | .fontAddr _ => it = .I
    | .bcdStore _ => ByteAtI s 3 it ∨ FaultItem it
    | .regDump x => it = .I ∨ ByteAtI s (x.val + 1) it ∨ FaultItem it
    | .regLoad x => it = .I ∨ (∃ k : Reg, k ≤ x ∧ it = .reg k) ∨ FaultItem it
    | .skipKey _ => FaultItem it
    | .skipNkey _ => FaultItem it
    | .waitKey x => it = .reg x ∨ it = .status

end Sys2Proof
end

