-- ==== Sys2Proof/Certificates/Slice0/Obligations.lean ====
section
/-! DEFINITION. The statements about the rusty8 core, for the provers. Each follows the rules of spec/ its docstring
names. `OnlyChanges W s t` is the frame: every register, memory byte (read one by one), stack entry, pixel, key and other
item outside `W` keeps its value. -/

open Sys2Proof Sys2Proof.Machine

/-! ## Encoding (30_encoding.md) -/

/-- R100, R104, R107: decoding the two bytes of a well-formed instruction gives it back, with every operand at every value
its field admits, and consumes exactly those two bytes. -/
def Obligations.DecodeOfEncodedInstruction : Prop :=
  ∀ (i : Instr) (rest : List Byte), i.wf = true → decodeBytes (encodeBytes i ++ rest) = .ok (i, rest)

/-- R107: a word has one meaning; the instruction a word decodes to is well-formed and encodes back to that word, so no bit
that matters is dropped. The shifts keep their unread Y (R311, R313). -/
def Obligations.EncodeOfDecodedWord : Prop :=
  ∀ (w : Word) (i : Instr), decodeWord w = .ok i → i.wf = true ∧ encode i = w

/-- R107, R120: the rows of the opcode map that match a word are exactly the row of the instruction the decoder reads, and a
word the decoder rejects matches no row. -/
def Obligations.DecodeFollowsOpcodeMap : Prop :=
  (∀ (w : Word) (i : Instr), decodeWord w = .ok i →
      ∀ r ∈ opcodeTable, (r.covers w = true ↔ r.mnemonic = i.mnemonic)) ∧
  (∀ (w : Word) (e : DecodeError), decodeWord w = .error e → e = .illegal w ∧ ∀ r ∈ opcodeTable, r.covers w = false)

/-- R121: the illegal words are exactly those of its table, family by family (the spec's decision D14). -/
def Obligations.IllegalWordsAreTheListedOnes : Prop :=
  ∀ w : Word, decodeWord w = .error (.illegal w) ↔
    (w.toNat / 4096 = 0 ∧ w.toNat ≠ 0x00E0 ∧ w.toNat ≠ 0x00EE) ∨
    (w.toNat / 4096 = 5 ∧ w.toNat % 16 ≠ 0) ∨
    (w.toNat / 4096 = 8 ∧ w.toNat % 16 ∈ [0x8, 0x9, 0xA, 0xB, 0xC, 0xD, 0xF]) ∨
    (w.toNat / 4096 = 9 ∧ w.toNat % 16 ≠ 0) ∨
    (w.toNat / 4096 = 14 ∧ w.toNat % 256 ∉ [0x9E, 0xA1]) ∨
    (w.toNat / 4096 = 15 ∧ w.toNat % 256 ∉ [0x07, 0x0A, 0x15, 0x18, 0x1E, 0x29, 0x33, 0x55, 0x65])

/-- A word of each format, written out from R104 and 95_test_vectors.md, decodes to the instruction it stands for. -/
def Obligations.SampleWordsDecode : Prop :=
  decodeWord 0b0000000011100000#16 = .ok .clearScreen ∧
  decodeWord 0b0010001000001010#16 = .ok (.call 0x20A) ∧
  decodeWord 0b0110101000000101#16 = .ok (.loadImm 0xA 0x05) ∧
  decodeWord 0b1000001100010101#16 = .ok (.sub 3 1) ∧
  decodeWord 0b1101000011110001#16 = .ok (.draw 0 15 1) ∧
  decodeWord 0b1110010010011110#16 = .ok (.skipKey 4) ∧
  decodeWord 0b1111101000110011#16 = .ok (.bcdStore 0xA)

/-! ## The step (30_encoding.md R101, R102, R130) -/

/-- R101, R130: a running machine whose two bytes at `pc` decode to `i` performs exactly `exec i`, with `cur` the big-endian
word of those bytes and `pc` still at the instruction (10_state.md R35). -/
def Obligations.StepRunsDecodedInstruction : Prop :=
  ∀ (s : State) (i : Instr), s.status = .running → s.pc.toNat + 1 < 4096 →
    decodeBytes [s.readByte s.pc.toNat, s.readByte (s.pc.toNat + 1)] = .ok (i, []) →
    ∃ w : Word, w.toNat = (s.readByte s.pc.toNat).toNat * 256 + (s.readByte (s.pc.toNat + 1)).toNat ∧
      step s = exec i (s.setCur w)

/-- R102 (the spec's decisions D2, D4, D21): a fetch past the end of memory takes OutOfBounds, its record without a word. -/
def Obligations.FetchPastEndFaults : Prop :=
  ∀ s : State, s.status = .running → s.pc.toNat + 1 ≥ 4096 →
    ∃ t, step s = .next t ∧ TakesFault .outOfBounds none s t

/-- 60_exceptions.md R606, R610 (the spec's decision D4): a word that decodes to nothing takes DecodeFault before any execute
action; `cur` holds the word (R604 allows it; the model's choice, log entry 2). -/
def Obligations.IllegalWordFaults : Prop :=
  ∀ (s : State) (w : Word), s.status = .running → s.fetchWord = some w → decodeWord w = .error (.illegal w) →
    ∃ t, step s = .next t ∧ t.cur = w ∧ TakesFault .decodeFault (some w) (s.setCur w) t

/-- 60_exceptions.md R604, R610 (the spec's decision D4): a fault is precise and atomic. Whatever fault a running machine
takes in a step, only `status`, the record and `cur` change, and the record names the old `pc` and, unless the fetch bound
failed, the word at `pc`. -/
def Obligations.FaultEntryIsAtomic : Prop :=
  ∀ s t : State, s.status = .running → step s = .next t → t.status = .faulted →
    OnlyChanges (· ∈ [.status, .fault, .cur]) s t ∧
    ∃ f, t.fault = some f ∧ f.pc = s.pc ∧ f.kind ≠ .romTooLarge ∧ f.word = s.fetchWord

/-- 60_exceptions.md R605, R611 (the spec's decision D4): a fault is sticky. Every step, and every host operation but
`reset`, leaves a faulted machine faulted with the same record; a step changes nothing at all. -/
def Obligations.FaultIsSticky : Prop :=
  (∀ s : State, s.status = .faulted → step s = .next s) ∧
  (∀ (s : State) (op : HostOp), s.status = .faulted → op ≠ .reset →
    (hostOp op s).1.status = .faulted ∧ (hostOp op s).1.fault = s.fault)

/-- R130, 60_exceptions.md R604, R605 (the spec's decision D4): every step of every state answers a next state, whatever the
bytes at `pc` and whatever the status. That a raise is a next state, and not an outcome that ends the machine, is the
model's reading of those rules (DEDUCED, log entry 1). -/
def Obligations.StepAlwaysAnswersNext : Prop :=
  ∀ s : State, ∃ t, step s = .next t

/-- R132: a step never writes `keys`, and writes `DT` or `ST` only by executing Fx15 or Fx18. -/
def Obligations.StepLeavesTimersAndKeys : Prop :=
  ∀ s t : State, step s = .next t →
    t.keys = s.keys ∧
    (t.DT ≠ s.DT → s.status = .running ∧ ∃ w x, s.fetchWord = some w ∧ decodeWord w = .ok (.setDelay x)) ∧
    (t.ST ≠ s.ST → s.status = .running ∧ ∃ w x, s.fetchWord = some w ∧ decodeWord w = .ok (.setSound x))

/-- 10_state.md R41, R42, R45: in a step only `call` and `return` change `sp`, only `call` changes a stack entry, and only
`clear-screen` and `draw` change a pixel. -/
def Obligations.StackAndDisplayWriters : Prop :=
  ∀ s t : State, step s = .next t →
    (t.sp ≠ s.sp → ∃ w i, s.fetchWord = some w ∧ decodeWord w = .ok i ∧ (i = .ret ∨ ∃ a, i = .call a)) ∧
    (t.stack ≠ s.stack → ∃ w a, s.fetchWord = some w ∧ decodeWord w = .ok (.call a)) ∧
    (t.fb ≠ s.fb → ∃ w i, s.fetchWord = some w ∧ decodeWord w = .ok i ∧ (i = .clearScreen ∨ ∃ x y n, i = .draw x y n))

/-- 10_state.md R34, R36, R39 to R43, R45 to R47, 20_memory.md R77: whatever state an instruction goes on to, it has written
no item outside the ones the spec's tables give it. -/
def Obligations.ExecWritesOnlyItsItems : Prop :=
  ∀ (i : Instr) (s t : State), exec i s = .next t → OnlyChanges (MayWrite i s) s t

/-- 44_timers_keys.md R454 to R456, 60_exceptions.md R617 (the spec's decision D12): a running machine comes to wait only by
a `wait-key` with no key pressed, and then nothing but `status` and `cur` has changed. -/
def Obligations.WaitEnteredOnlyByWaitKey : Prop :=
  ∀ (s t : State) (r : Reg), s.status = .running → step s = .next t → t.status = .awaitingKey r →
    (∃ w, s.fetchWord = some w ∧ decodeWord w = .ok (.waitKey r)) ∧ (∀ k, s.key k = false) ∧
    OnlyChanges (· ∈ [.status, .cur]) s t

/-- 44_timers_keys.md R456, R457 (the spec's decision D12): a step of a waiting machine stores the lowest pressed key,
advances `pc` and runs again; with no key pressed it changes nothing. -/
def Obligations.WaitingStepPolls : Prop :=
  ∀ (s : State) (r : Reg), s.status = .awaitingKey r →
    (∀ k : Key, s.key k = true → (∀ j : Key, j < k → s.key j = false) →
      ∃ t, step s = .next t ∧ (t.reg r).toNat = k.val ∧ t.pc = s.pc + 2 ∧ t.status = .running ∧
        OnlyChanges (· ∈ [.reg r, .pc, .status]) s t) ∧
    ((∀ k : Key, s.key k = false) → step s = .next s)

/-- 70_reset_and_hazards.md R714 (the spec's decision D24): a self-jump leaves every item as it was but `cur`, so a run that
has reached one has ended. -/
def Obligations.SelfJumpChangesNothing : Prop :=
  ∀ (s : State) (w : Word), s.status = .running → s.fetchWord = some w → w.toNat = 0x1000 + s.pc.toNat →
    step s = .next (s.setCur w)

/-! ## The invariant -/

/-- Every step keeps the invariant: canonical memory, a record exactly in Faulted that names the current `pc`, `pc` at most
0x1100, saved addresses at most 0xFFE, a waiting `pc` that was fetched. -/
def Obligations.StepKeepsInvariant : Prop :=
  ∀ s t : State, Inv s → step s = .next t → Inv t

/-- Every host operation keeps the invariant, so it holds under every interleaving of 60_exceptions.md R631. -/
def Obligations.HostOperationKeepsInvariant : Prop :=
  ∀ (s : State) (op : HostOp), Inv s → Inv (hostOp op s).1

/-- The machine right after reset meets the invariant. -/
def Obligations.ResetMeetsInvariant : Prop :=
  Inv State.reset

/-! ## Reset and the host interface -/

/-- 10_state.md R53: the value of every item after reset. The bytes at 0x000 to 0x04F are the machine's FONT, whose default
table is the spec's decision D16 (log entry 5; vector W1 of 95_test_vectors.md). The values of the registers, `I`, the stack
entries, `redraw`, `cur`, `status` and `fault` are the spec's decision D10 (log entry 7). R701: the operation `reset()` gives these values
whatever the state before; only the model's own count of oracle calls goes on (log entry 3). -/
def Obligations.ResetValues : Prop :=
  State.reset.pc.toNat = 0x200 ∧ State.reset.sp.val = 0 ∧ State.reset.DT = 0 ∧ State.reset.ST = 0 ∧
  (∀ c r, State.reset.pixel c r = false) ∧ (∀ k, State.reset.key k = false) ∧
  (∀ (a : Nat) (h : a < 80), State.reset.readByte a = font[a]) ∧
  (∀ a, 0x50 ≤ a → a < 4096 → State.reset.readByte a = 0) ∧
  (∀ k, State.reset.reg k = 0) ∧ State.reset.I = 0 ∧ (∀ k, State.reset.entry k = 0) ∧ State.reset.redraw = false ∧
  State.reset.cur = 0 ∧ State.reset.status = .running ∧ State.reset.fault = none ∧
  (∀ s : State, ∃ t, hostOp .reset s = (t, .done) ∧ t.rngCalls = s.rngCalls ∧ OnlyChanges (· = .rngCalls) State.reset t)

/-- 70_reset_and_hazards.md R700 to R703: reset with any font table stands its 80 bytes at 0x000 to 0x04F and zeros above, in
canonical memory, and leaves every other item at its reset value. The machine's own reset state, which `reset()` gives, is
the one with the default table FONT (the spec's decision D16, log entry 5). -/
def Obligations.ResetInstallsFont : Prop :=
  State.reset = resetWith font ∧
  ∀ table : Vector Byte 80, Memory.wf (resetWith table).mem ∧
    (∀ (a : Nat) (h : a < 80), (resetWith table).readByte a = table[a]) ∧
    OnlyChanges (fun it => ∃ a, a < 80 ∧ it = .memByte a) State.reset (resetWith table)

/-- 70_reset_and_hazards.md R706, R707: `load_rom` copies at most 3584 bytes to 0x200 and changes nothing else; a longer ROM
is rejected and changes nothing. -/
def Obligations.LoadRomCopiesOrRejects : Prop :=
  ∀ (s : State) (rom : List Byte), Memory.wf s.mem →
    (rom.length ≤ 3584 → ∃ t, hostOp (.loadRom rom) s = (t, .done) ∧
      (∀ (k : Nat) (h : k < rom.length), t.readByte (0x200 + k) = rom[k]) ∧
      OnlyChanges (fun it => ∃ k, k < rom.length ∧ it = .memByte (0x200 + k)) s t) ∧
    (rom.length > 3584 → hostOp (.loadRom rom) s = (s, .rejected .romTooLarge))

/-- 60_exceptions.md R621: a tick decrements both timers, floor 0, and changes nothing else, in every status. -/
def Obligations.TickCountsDown : Prop :=
  ∀ s : State, ∃ t, hostOp .tickTimers s = (t, .done) ∧ t.DT.toNat = s.DT.toNat - 1 ∧ t.ST.toNat = s.ST.toNat - 1 ∧
    OnlyChanges (· ∈ [.DT, .ST]) s t

/-- 60_exceptions.md R622, R623: `set_key` writes one key, `clear_redraw` the redraw flag, and nothing else. -/
def Obligations.KeyAndRedrawWrites : Prop :=
  ∀ s : State,
    (∀ (k : Key) (b : Bool), ∃ t, hostOp (.setKey k b) s = (t, .done) ∧ t.key k = b ∧
      OnlyChanges (· ∈ [.key k]) s t) ∧
    (∃ t, hostOp .clearRedraw s = (t, .done) ∧ t.redraw = false ∧ OnlyChanges (· ∈ [.redraw]) s t)

/-- 60_exceptions.md R624 to R626, R630: what the reading operations answer, without changing the machine. The flat index of
a pixel is the spec's decision D17. -/
def Obligations.ReadsAnswerWithoutChange : Prop :=
  ∀ s : State,
    (∃ px : List Byte, hostOp .readDisplay s = (s, .display px) ∧ px.length = 2048 ∧
      ∀ (c : Col) (r : Row), px[r.val * 64 + c.val]? = some (if s.pixel c r then 1 else 0)) ∧
    hostOp .readRedraw s = (s, .flag s.redraw) ∧
    hostOp .readTimers s = (s, .timers s.DT s.ST) ∧
    (∃ b, hostOp .soundOn s = (s, .flag b) ∧ (b = true ↔ 0 < s.ST.toNat)) ∧
    hostOp .readStatus s = (s, .status s.status s.fault)

/-! ## Control transfer and the stack (40_control_flow.md) -/

/-- R203 (the fault is the spec's decisions D4, D6): `return` resumes two past the saved address and frees the entry, which
keeps its value; with nothing saved it takes StackUnderflow. -/
def Obligations.ReturnPopsAndResumes : Prop :=
  Encodes 0xFFFF 0x00EE (fun _ => .ret) ∧
  (∀ (s : State) (k : Fin 16), s.sp.val = k.val + 1 →
    ∃ t, exec .ret s = .next t ∧ t.pc = s.entry k + 2 ∧ t.sp.val = k.val ∧ OnlyChanges (· ∈ [.pc, .sp]) s t) ∧
  (∀ s : State, s.sp.val = 0 → ∃ t, exec .ret s = .next t ∧ TakesFault .stackUnderflow (some s.cur) s t)

/-- R204: `jump` sets `pc` to the zero-extended NNN. -/
def Obligations.JumpSetsPc : Prop :=
  Encodes 0xF000 0x1000 (fun w => .jump (fieldNNN w)) ∧
  ∀ (a : Addr12) (s : State), ∃ t, exec (.jump a) s = .next t ∧ t.pc.toNat = a.toNat ∧ OnlyChanges (· ∈ [.pc]) s t

/-- R205 (the fault is the spec's decisions D4, D6): `call` saves its own address in the next free entry and jumps; with 16
saved it takes StackOverflow. -/
def Obligations.CallPushesOwnAddress : Prop :=
  Encodes 0xF000 0x2000 (fun w => .call (fieldNNN w)) ∧
  (∀ (a : Addr12) (s : State) (k : Fin 16), s.sp.val = k.val →
    ∃ t, exec (.call a) s = .next t ∧ t.entry k = s.pc ∧ t.sp.val = k.val + 1 ∧ t.pc.toNat = a.toNat ∧
      OnlyChanges (· ∈ [.pc, .sp, .entry k]) s t) ∧
  (∀ (a : Addr12) (s : State), s.sp.val = 16 →
    ∃ t, exec (.call a) s = .next t ∧ TakesFault .stackOverflow (some s.cur) s t)

/-- R206: `jump-offset` sets `pc` to V0 plus NNN plus 2, not reduced modulo 4096. -/
def Obligations.JumpOffsetAddsTwo : Prop :=
  Encodes 0xF000 0xB000 (fun w => .jumpOffset (fieldNNN w)) ∧
  ∀ (a : Addr12) (s : State), ∃ t, exec (.jumpOffset a) s = .next t ∧
    t.pc.toNat = (s.reg 0).toNat + a.toNat + 2 ∧ OnlyChanges (· ∈ [.pc]) s t

/-- R203, R205, 10_state.md R42: a `call` that does not overflow, and then a `return` from anywhere with the same stack,
comes back to the address after the call with the caller's `sp`. -/
def Obligations.CallThenReturnResumes : Prop :=
  ∀ (a : Addr12) (s t : State) (v : Word), s.sp.val < 16 → exec (.call a) s = .next t →
    ∃ u, exec .ret (t.setPc v) = .next u ∧ u.pc = s.pc + 2 ∧ u.sp = s.sp ∧
      (∀ k : Fin 16, k.val < s.sp.val → u.entry k = s.entry k)

/-! ## Skips (41_skip.md) -/

/-- R251, R252: the skips on an immediate. -/
def Obligations.SkipsOnImmediate : Prop :=
  Encodes 0xF000 0x3000 (fun w => .skipEqImm (fieldX w) (fieldNN w)) ∧
  Encodes 0xF000 0x4000 (fun w => .skipNeImm (fieldX w) (fieldNN w)) ∧
  ∀ (x : Reg) (nn : Byte) (s : State),
    (∃ t, exec (.skipEqImm x nn) s = .next t ∧ t.pc = (if s.reg x = nn then s.pc + 4 else s.pc + 2) ∧
      OnlyChanges (· ∈ [.pc]) s t) ∧
    (∃ t, exec (.skipNeImm x nn) s = .next t ∧ t.pc = (if s.reg x = nn then s.pc + 2 else s.pc + 4) ∧
      OnlyChanges (· ∈ [.pc]) s t)

/-- R253, R254: the skips on two registers. -/
def Obligations.SkipsOnRegisters : Prop :=
  Encodes 0xF00F 0x5000 (fun w => .skipEqReg (fieldX w) (fieldY w)) ∧
  Encodes 0xF00F 0x9000 (fun w => .skipNeReg (fieldX w) (fieldY w)) ∧
  ∀ (x y : Reg) (s : State),
    (∃ t, exec (.skipEqReg x y) s = .next t ∧ t.pc = (if s.reg x = s.reg y then s.pc + 4 else s.pc + 2) ∧
      OnlyChanges (· ∈ [.pc]) s t) ∧
    (∃ t, exec (.skipNeReg x y) s = .next t ∧ t.pc = (if s.reg x = s.reg y then s.pc + 2 else s.pc + 4) ∧
      OnlyChanges (· ∈ [.pc]) s t)

/-- R255, R256 (the fault is the spec's decisions D4, D11): the skips on a key; a register above 15 names no key and takes
OutOfBounds. -/
def Obligations.SkipsOnKeys : Prop :=
  Encodes 0xF0FF 0xE09E (fun w => .skipKey (fieldX w)) ∧ Encodes 0xF0FF 0xE0A1 (fun w => .skipNkey (fieldX w)) ∧
  (∀ (x : Reg) (s : State) (k : Key), (s.reg x).toNat = k.val →
    (∃ t, exec (.skipKey x) s = .next t ∧ t.pc = (if s.key k = true then s.pc + 4 else s.pc + 2) ∧
      OnlyChanges (· ∈ [.pc]) s t) ∧
    (∃ t, exec (.skipNkey x) s = .next t ∧ t.pc = (if s.key k = true then s.pc + 2 else s.pc + 4) ∧
      OnlyChanges (· ∈ [.pc]) s t)) ∧
  (∀ (x : Reg) (s : State), (s.reg x).toNat > 15 →
    (∃ t, exec (.skipKey x) s = .next t ∧ TakesFault .outOfBounds (some s.cur) s t) ∧
    (∃ t, exec (.skipNkey x) s = .next t ∧ TakesFault .outOfBounds (some s.cur) s t))

/-! ## Register loads and the ALU (42_alu.md) -/

/-- R303, R305: `load-imm` and `assign` write one register and touch no flag. -/
def Obligations.LoadsWriteOneRegister : Prop :=
  Encodes 0xF000 0x6000 (fun w => .loadImm (fieldX w) (fieldNN w)) ∧
  Encodes 0xF00F 0x8000 (fun w => .assign (fieldX w) (fieldY w)) ∧
  (∀ (x : Reg) (nn : Byte) (s : State), ∃ t, exec (.loadImm x nn) s = .next t ∧ t.reg x = nn ∧ t.pc = s.pc + 2 ∧
    OnlyChanges (· ∈ [.reg x, .pc]) s t) ∧
  (∀ (x y : Reg) (s : State), ∃ t, exec (.assign x y) s = .next t ∧ t.reg x = s.reg y ∧ t.pc = s.pc + 2 ∧
    OnlyChanges (· ∈ [.reg x, .pc]) s t)

/-- R304: `add-imm` adds modulo 256 and leaves VF alone unless VF is the register it names. -/
def Obligations.AddImmWrapsWithoutFlag : Prop :=
  Encodes 0xF000 0x7000 (fun w => .addImm (fieldX w) (fieldNN w)) ∧
  ∀ (x : Reg) (nn : Byte) (s : State), ∃ t, exec (.addImm x nn) s = .next t ∧
    (t.reg x).toNat = ((s.reg x).toNat + nn.toNat) % 256 ∧ t.pc = s.pc + 2 ∧ OnlyChanges (· ∈ [.reg x, .pc]) s t

/-- R306, R307, R308: `or`, `and`, `xor`, bit by bit, with no flag. -/
def Obligations.LogicalOpsAreBitwise : Prop :=
  Encodes 0xF00F 0x8001 (fun w => .or (fieldX w) (fieldY w)) ∧
  Encodes 0xF00F 0x8002 (fun w => .and (fieldX w) (fieldY w)) ∧
  Encodes 0xF00F 0x8003 (fun w => .xor (fieldX w) (fieldY w)) ∧
  ∀ (x y : Reg) (s : State),
    (∃ t, exec (.or x y) s = .next t ∧ t.pc = s.pc + 2 ∧ OnlyChanges (· ∈ [.reg x, .pc]) s t ∧
      ∀ k, (t.reg x).getLsbD k = ((s.reg x).getLsbD k || (s.reg y).getLsbD k)) ∧
    (∃ t, exec (.and x y) s = .next t ∧ t.pc = s.pc + 2 ∧ OnlyChanges (· ∈ [.reg x, .pc]) s t ∧
      ∀ k, (t.reg x).getLsbD k = ((s.reg x).getLsbD k && (s.reg y).getLsbD k)) ∧
    (∃ t, exec (.xor x y) s = .next t ∧ t.pc = s.pc + 2 ∧ OnlyChanges (· ∈ [.reg x, .pc]) s t ∧
      ∀ k, (t.reg x).getLsbD k = ((s.reg x).getLsbD k ^^ (s.reg y).getLsbD k))

/-- R309: `add` writes the sum modulo 256 and VF the carry of the old operands; with X = F the carry remains (R301, the
spec's decision D9, log entry 8). -/
def Obligations.AddSetsCarry : Prop :=
  Encodes 0xF00F 0x8004 (fun w => .add (fieldX w) (fieldY w)) ∧
  ∀ (x y : Reg) (s : State), ∃ t, exec (.add x y) s = .next t ∧
    (x ≠ VF → (t.reg x).toNat = ((s.reg x).toNat + (s.reg y).toNat) % 256) ∧
    (t.reg VF).toNat = (if (s.reg x).toNat + (s.reg y).toNat > 255 then 1 else 0) ∧
    t.pc = s.pc + 2 ∧ OnlyChanges (· ∈ [.reg x, .reg VF, .pc]) s t

/-- R310, R312: `sub` and `subn` write the difference modulo 256 and VF no-borrow of the old operands; with X = F the flag
remains (R301, the spec's decision D9, log entry 8). -/
def Obligations.SubtractionsSetNoBorrow : Prop :=
  Encodes 0xF00F 0x8005 (fun w => .sub (fieldX w) (fieldY w)) ∧
  Encodes 0xF00F 0x8007 (fun w => .subn (fieldX w) (fieldY w)) ∧
  ∀ (x y : Reg) (s : State),
    (∃ t, exec (.sub x y) s = .next t ∧
      (x ≠ VF → (t.reg x).toNat = ((s.reg x).toNat + 256 - (s.reg y).toNat) % 256) ∧
      (t.reg VF).toNat = (if (s.reg x).toNat ≥ (s.reg y).toNat then 1 else 0) ∧
      t.pc = s.pc + 2 ∧ OnlyChanges (· ∈ [.reg x, .reg VF, .pc]) s t) ∧
    (∃ t, exec (.subn x y) s = .next t ∧
      (x ≠ VF → (t.reg x).toNat = ((s.reg y).toNat + 256 - (s.reg x).toNat) % 256) ∧
      (t.reg VF).toNat = (if (s.reg y).toNat ≥ (s.reg x).toNat then 1 else 0) ∧
      t.pc = s.pc + 2 ∧ OnlyChanges (· ∈ [.reg x, .reg VF, .pc]) s t)

/-- R311, R313: the shifts move Vx by one, bringing in zero, VF takes the bit shifted out, and Vy is not read; with X = F the
flag is written first and then shifted (R301, the spec's decision D9, log entry 8). -/
def Obligations.ShiftsMoveOneBit : Prop :=
  Encodes 0xF00F 0x8006 (fun w => .shr (fieldX w) (fieldY w)) ∧
  Encodes 0xF00F 0x800E (fun w => .shl (fieldX w) (fieldY w)) ∧
  ∀ (x y : Reg) (s : State),
    (∃ t, exec (.shr x y) s = .next t ∧
      (x ≠ VF → (t.reg x).toNat = (s.reg x).toNat / 2 ∧ (t.reg VF).toNat = (s.reg x).toNat % 2) ∧
      (x = VF → (t.reg VF).toNat = 0) ∧
      t.pc = s.pc + 2 ∧ OnlyChanges (· ∈ [.reg x, .reg VF, .pc]) s t) ∧
    (∃ t, exec (.shl x y) s = .next t ∧
      (x ≠ VF → (t.reg x).toNat = (s.reg x).toNat * 2 % 256 ∧ (t.reg VF).toNat = (s.reg x).toNat / 128) ∧
      (x = VF → (t.reg VF).toNat = (if (s.reg VF).toNat ≥ 128 then 2 else 0)) ∧
      t.pc = s.pc + 2 ∧ OnlyChanges (· ∈ [.reg x, .reg VF, .pc]) s t)

/-- R314, R315 (the spec's decision D13): `rand` writes the oracle's answer to this call masked by NN, whatever the answer
(the free value `Config.randomByte`, log entry 3), and moves on to the next call. -/
def Obligations.RandMasksOracleAnswer : Prop :=
  Encodes 0xF000 0xC000 (fun w => .rand (fieldX w) (fieldNN w)) ∧
  ∀ (x : Reg) (nn : Byte) (s : State), ∃ t, exec (.rand x nn) s = .next t ∧
    (∀ k, (t.reg x).getLsbD k = ((Config.randomByte s.rngCalls).getLsbD k && nn.getLsbD k)) ∧
    t.rngCalls = s.rngCalls + 1 ∧ t.pc = s.pc + 2 ∧ OnlyChanges (· ∈ [.reg x, .pc, .rngCalls]) s t

/-! ## The address register and memory (43_index_memory.md) -/

/-- R401: `load-addr` sets `I` to the zero-extended NNN. -/
def Obligations.LoadAddrSetsI : Prop :=
  Encodes 0xF000 0xA000 (fun w => .loadAddr (fieldNNN w)) ∧
  ∀ (a : Addr12) (s : State), ∃ t, exec (.loadAddr a) s = .next t ∧ t.I.toNat = a.toNat ∧ t.pc = s.pc + 2 ∧
    OnlyChanges (· ∈ [.I, .pc]) s t

/-- R402, R403: `add-addr` adds the register to `I` modulo 65536 with VF unchanged; `font-addr` sets `I` to five times the
whole byte. -/
def Obligations.AddAddrAndFontAddr : Prop :=
  Encodes 0xF0FF 0xF01E (fun w => .addAddr (fieldX w)) ∧ Encodes 0xF0FF 0xF029 (fun w => .fontAddr (fieldX w)) ∧
  ∀ (x : Reg) (s : State),
    (∃ t, exec (.addAddr x) s = .next t ∧ t.I.toNat = (s.I.toNat + (s.reg x).toNat) % 65536 ∧ t.pc = s.pc + 2 ∧
      OnlyChanges (· ∈ [.I, .pc]) s t) ∧
    (∃ t, exec (.fontAddr x) s = .next t ∧ t.I.toNat = (s.reg x).toNat * 5 ∧ t.pc = s.pc + 2 ∧
      OnlyChanges (· ∈ [.I, .pc]) s t)

/-- R404 (the fault is the spec's decision D4): `bcd-store` stores the three digits at `I`, `I + 1`, `I + 2`, leaving `I` and
every other byte; past the end of memory it takes OutOfBounds. Canonical memory is the invariant's. -/
def Obligations.BcdStoresDigits : Prop :=
  Encodes 0xF0FF 0xF033 (fun w => .bcdStore (fieldX w)) ∧
  (∀ (x : Reg) (s : State), Memory.wf s.mem → effAddr s 2 < 4096 →
    ∃ t, exec (.bcdStore x) s = .next t ∧
      (t.readByte (effAddr s 0)).toNat = (s.reg x).toNat / 100 ∧
      (t.readByte (effAddr s 1)).toNat = (s.reg x).toNat / 10 % 10 ∧
      (t.readByte (effAddr s 2)).toNat = (s.reg x).toNat % 10 ∧ t.pc = s.pc + 2 ∧
      OnlyChanges (fun it => it = .pc ∨ ByteAtI s 3 it) s t) ∧
  (∀ (x : Reg) (s : State), effAddr s 2 ≥ 4096 →
    ∃ t, exec (.bcdStore x) s = .next t ∧ TakesFault .outOfBounds (some s.cur) s t)

/-- R405 (the fault is the spec's decision D4): `reg-dump` stores V0 to Vx at `I` and up, adds X + 1 to `I`, and leaves every
other byte; past the end of memory it takes OutOfBounds. Canonical memory is the invariant's. -/
def Obligations.RegDumpStoresBlock : Prop :=
  Encodes 0xF0FF 0xF055 (fun w => .regDump (fieldX w)) ∧
  (∀ (x : Reg) (s : State), Memory.wf s.mem → effAddr s x.val < 4096 →
    ∃ t, exec (.regDump x) s = .next t ∧
      (∀ k : Reg, k ≤ x → t.readByte (effAddr s k.val) = s.reg k) ∧
      t.I.toNat = (s.I.toNat + x.val + 1) % 65536 ∧ t.pc = s.pc + 2 ∧
      OnlyChanges (fun it => it = .pc ∨ it = .I ∨ ByteAtI s (x.val + 1) it) s t) ∧
  (∀ (x : Reg) (s : State), effAddr s x.val ≥ 4096 →
    ∃ t, exec (.regDump x) s = .next t ∧ TakesFault .outOfBounds (some s.cur) s t)

/-- R406 (the fault is the spec's decision D4): `reg-load` loads V0 to Vx from `I` and up, adds X + 1 to `I`, and leaves the
registers above X and all of memory; past the end of memory it takes OutOfBounds. -/
def Obligations.RegLoadReadsBlock : Prop :=
  Encodes 0xF0FF 0xF065 (fun w => .regLoad (fieldX w)) ∧
  (∀ (x : Reg) (s : State), effAddr s x.val < 4096 →
    ∃ t, exec (.regLoad x) s = .next t ∧
      (∀ k : Reg, k ≤ x → t.reg k = s.readByte (effAddr s k.val)) ∧
      t.I.toNat = (s.I.toNat + x.val + 1) % 65536 ∧ t.pc = s.pc + 2 ∧
      OnlyChanges (fun it => it = .pc ∨ it = .I ∨ ∃ k : Reg, k ≤ x ∧ it = .reg k) s t) ∧
  (∀ (x : Reg) (s : State), effAddr s x.val ≥ 4096 →
    ∃ t, exec (.regLoad x) s = .next t ∧ TakesFault .outOfBounds (some s.cur) s t)

/-- 95_test_vectors.md W6: for every byte value, `bcd-store` and then `reg-load` of V0 to V2 at the same `I` leaves its
decimal digits in V0, V1, V2 and `I` three higher. -/
def Obligations.BcdRoundTrip : Prop :=
  ∀ (x : Reg) (s t : State), Memory.wf s.mem → effAddr s 2 < 4096 → exec (.bcdStore x) s = .next t →
    ∃ u, exec (.regLoad 2) t = .next u ∧ (u.reg 0).toNat = (s.reg x).toNat / 100 ∧
      (u.reg 1).toNat = (s.reg x).toNat / 10 % 10 ∧ (u.reg 2).toNat = (s.reg x).toNat % 10 ∧
      u.I.toNat = s.I.toNat + 3

/-- 20_memory.md R85, 70_reset_and_hazards.md R711 (the spec's decision D23): a word stored by `reg-dump` is what the next
fetch at its address reads, with no intervening action. -/
def Obligations.StoredBytesAreFetched : Prop :=
  ∀ (x k k' : Reg) (s t : State), Memory.wf s.mem → effAddr s x.val < 4096 → k'.val = k.val + 1 → k' ≤ x →
    exec (.regDump x) s = .next t →
    ∃ w : Word, (t.setPc (BitVec.ofNat 16 (effAddr s k.val))).fetchWord = some w ∧
      w.toNat = (s.reg k).toNat * 256 + (s.reg k').toNat

/-! ## Timers and keys (44_timers_keys.md) -/

/-- R451, R452, R453: the moves between a register and a timer. -/
def Obligations.TimerMoves : Prop :=
  Encodes 0xF0FF 0xF007 (fun w => .getDelay (fieldX w)) ∧ Encodes 0xF0FF 0xF015 (fun w => .setDelay (fieldX w)) ∧
  Encodes 0xF0FF 0xF018 (fun w => .setSound (fieldX w)) ∧
  ∀ (x : Reg) (s : State),
    (∃ t, exec (.getDelay x) s = .next t ∧ t.reg x = s.DT ∧ t.pc = s.pc + 2 ∧ OnlyChanges (· ∈ [.reg x, .pc]) s t) ∧
    (∃ t, exec (.setDelay x) s = .next t ∧ t.DT = s.reg x ∧ t.pc = s.pc + 2 ∧ OnlyChanges (· ∈ [.DT, .pc]) s t) ∧
    (∃ t, exec (.setSound x) s = .next t ∧ t.ST = s.reg x ∧ t.pc = s.pc + 2 ∧ OnlyChanges (· ∈ [.ST, .pc]) s t)

/-- R455, R457 (the spec's decision D12): `wait-key` stores the lowest pressed key and completes in its own step; with no
key pressed it changes `status` to AwaitingKey(X) and nothing else. -/
def Obligations.WaitKeyStoresLowestOrWaits : Prop :=
  Encodes 0xF0FF 0xF00A (fun w => .waitKey (fieldX w)) ∧
  (∀ (x : Reg) (s : State) (k : Key), s.key k = true → (∀ j : Key, j < k → s.key j = false) →
    ∃ t, exec (.waitKey x) s = .next t ∧ (t.reg x).toNat = k.val ∧ t.pc = s.pc + 2 ∧
      OnlyChanges (· ∈ [.reg x, .pc]) s t) ∧
  (∀ (x : Reg) (s : State), (∀ k : Key, s.key k = false) →
    ∃ t, exec (.waitKey x) s = .next t ∧ t.status = .awaitingKey x ∧ OnlyChanges (· ∈ [.status]) s t)

/-! ## The display (45_display.md) -/

/-- R501: `clear-screen` sets every pixel to 0 and sets `redraw`. -/
def Obligations.ClearScreenFillsWithZero : Prop :=
  Encodes 0xFFFF 0x00E0 (fun _ => .clearScreen) ∧
  ∀ s : State, ∃ t, exec .clearScreen s = .next t ∧ (∀ c r, t.pixel c r = false) ∧ t.redraw = true ∧
    t.pc = s.pc + 2 ∧ OnlyChanges (fun it => it = .pc ∨ it = .redraw ∨ ∃ c r, it = .pixel c r) s t

/-- R502, R503, R504 (the spec's decisions D7, D8, D25): under either edge policy, a `draw` whose sprite lies in memory, or
of no rows, flips exactly the target pixels of its set bits, sets VF to 1 exactly when one of them was lit, sets `redraw`
and advances; the machine of `exec` is the one whose policy is `edgePolicy` (log entry 4). -/
def Obligations.DrawFlipsSpritePixels : Prop :=
  Encodes 0xF000 0xD000 (fun w => .draw (fieldX w) (fieldY w) (fieldN w)) ∧
  (∀ (x y : Reg) (n : Nat) (s : State), exec (.draw x y n) s = execDrawUnder edgePolicy x y n s) ∧
  (∀ (p : Config.EdgePolicy) (x y : Reg) (n : Nat) (s : State), n < 16 → (n = 0 ∨ effAddr s (n - 1) < 4096) →
    ∃ t, execDrawUnder p x y n s = .next t ∧
      (∀ c r, t.pixel c r ≠ s.pixel c r ↔ SpriteCovers p s (s.reg x).toNat (s.reg y).toNat n c r) ∧
      (t.reg VF = 1 ↔ ∃ c r, s.pixel c r = true ∧ t.pixel c r = false) ∧ (t.reg VF = 1 ∨ t.reg VF = 0) ∧
      t.redraw = true ∧ t.pc = s.pc + 2 ∧
      OnlyChanges (fun it => it = .pc ∨ it = .redraw ∨ it = .reg VF ∨ ∃ c r, it = .pixel c r) s t)

/-- R503 (the machine's own policy, the default `Wrap`, is the spec's decision D7, log entry 4): `draw` completes, and the
pixels it flips are the targets of the set sprite bits, columns modulo 64 and rows modulo 32. -/
def Obligations.DrawCompletesWrapped : Prop :=
  ∀ (x y : Reg) (n : Nat) (s : State), n < 16 → (n = 0 ∨ effAddr s (n - 1) < 4096) →
    ∃ t, exec (.draw x y n) s = .next t ∧
      (∀ (c : Col) (r : Row), t.pixel c r ≠ s.pixel c r ↔
        ∃ i j : Nat, i < n ∧ j < 8 ∧ (s.readByte (effAddr s i)).getLsbD (7 - j) = true ∧
          ((s.reg x).toNat + j) % 64 = c.val ∧ ((s.reg y).toNat + i) % 32 = r.val) ∧
      t.pc = s.pc + 2

/-- R503 (the spec's decisions D4, D8): a `draw` whose sprite passes the end of memory takes OutOfBounds and draws nothing,
under either edge policy. -/
def Obligations.DrawPastEndFaults : Prop :=
  ∀ (p : Config.EdgePolicy) (x y : Reg) (n : Nat) (s : State), 1 ≤ n → effAddr s (n - 1) ≥ 4096 →
    (∃ t, exec (.draw x y n) s = .next t ∧ TakesFault .outOfBounds (some s.cur) s t) ∧
    (∃ t, execDrawUnder p x y n s = .next t ∧ TakesFault .outOfBounds (some s.cur) s t)

/-- R504, 95_test_vectors.md W5: drawing one sprite twice from the same origin restores every pixel, and the second draw's
VF is 1 exactly when the first draw changed some pixel from 0 to 1. The origin is the same where the first draw's write of
VF has not changed Vx and Vy. -/
def Obligations.DrawTwiceRestoresDisplay : Prop :=
  ∀ (p : Config.EdgePolicy) (x y : Reg) (n : Nat) (s t : State), n < 16 → (n = 0 ∨ effAddr s (n - 1) < 4096) →
    execDrawUnder p x y n s = .next t → t.reg x = s.reg x → t.reg y = s.reg y →
    ∃ u, execDrawUnder p x y n t = .next u ∧ (∀ c r, u.pixel c r = s.pixel c r) ∧
      (u.reg VF = 1 ↔ ∃ c r, s.pixel c r = false ∧ t.pixel c r = true)

/-- R502: where a sprite lies wholly inside the display, the two edge policies draw the same. -/
def Obligations.EdgePoliciesAgreeInside : Prop :=
  ∀ (x y : Reg) (n : Nat) (s : State), (s.reg x).toNat + 8 ≤ 64 → (s.reg y).toNat + n ≤ 32 →
    execDrawUnder .wrap x y n s = execDrawUnder .clip x y n s

/-- R502, R503 (the row `Clip` of the policy table is the spec's decision D7, log entry 4): under `Clip`, `draw` completes,
and the pixels it flips are the targets of the set sprite bits at the unreduced column Vx + j and row Vy + i; a bit past the
right or the lower edge flips nothing, and an origin past an edge draws nothing. -/
def Obligations.DrawClippedDropsPastEdge : Prop :=
  ∀ (x y : Reg) (n : Nat) (s : State), n < 16 → (n = 0 ∨ effAddr s (n - 1) < 4096) →
    ∃ t, execDrawUnder .clip x y n s = .next t ∧
      (∀ (c : Col) (r : Row), t.pixel c r ≠ s.pixel c r ↔
        ∃ i j : Nat, i < n ∧ j < 8 ∧ (s.readByte (effAddr s i)).getLsbD (7 - j) = true ∧
          (s.reg x).toNat + j = c.val ∧ (s.reg y).toNat + i = r.val) ∧
      ((s.reg x).toNat ≥ 64 ∨ (s.reg y).toNat ≥ 32 → ∀ c r, t.pixel c r = s.pixel c r) ∧
      t.pc = s.pc + 2
end

