-- ==== Sys2Proof/Laws/Decode.lean ====
section
/-! SUPPORT. The value of each format's word and the fields read back from it (30_encoding.md R103, R104), the bytes of a
word (20_memory.md R73), and the opcode map without overlap (R107). -/

namespace Sys2Proof

theorem toNat_wordNNN (f : Nat) (a : Addr12) (hf : f < 16) : (wordNNN f a).toNat = f * 4096 + a.toNat := by
  have := a.isLt
  simp only [wordNNN, BitVec.toNat_ofNat]; omega

theorem toNat_wordXNN (f : Nat) (x : Reg) (k : Byte) (hf : f < 16) :
    (wordXNN f x k).toNat = f * 4096 + x.val * 256 + k.toNat := by
  have := k.isLt
  have := x.isLt
  simp only [wordXNN, BitVec.toNat_ofNat]; omega

theorem toNat_wordXYN (f : Nat) (x y : Reg) (n : Nat) (hf : f < 16) (hn : n < 16) :
    (wordXYN f x y n).toNat = f * 4096 + x.val * 256 + y.val * 16 + n := by
  have := y.isLt
  have := x.isLt
  simp only [wordXYN, BitVec.toNat_ofNat]; omega

theorem fieldF_eq (w : Word) : fieldF w = w.toNat / 4096 := by
  have := w.isLt
  simp only [fieldF, bits]; omega

theorem fieldX_val (w : Word) : (fieldX w).val = w.toNat / 256 % 16 := by
  simp only [fieldX, bits, Fin.val_ofNat]; omega

theorem fieldY_val (w : Word) : (fieldY w).val = w.toNat / 16 % 16 := by
  simp only [fieldY, bits, Fin.val_ofNat]; omega

theorem fieldN_eq (w : Word) : fieldN w = w.toNat % 16 := by
  simp only [fieldN, bits]; omega

theorem selector_eq (w : Word) : bits w 7 0 = w.toNat % 256 := by
  simp only [bits]; omega

theorem fieldNN_toNat (w : Word) : (fieldNN w).toNat = w.toNat % 256 := by
  simp only [fieldNN, bits, BitVec.toNat_ofNat]; omega

theorem fieldNNN_toNat (w : Word) : (fieldNNN w).toNat = w.toNat % 4096 := by
  simp only [fieldNNN, bits, BitVec.toNat_ofNat]; omega

@[simp] theorem fieldNNN_wordNNN (f : Nat) (a : Addr12) (hf : f < 16) : fieldNNN (wordNNN f a) = a := by
  have := a.isLt
  refine BitVec.eq_of_toNat_eq ?_
  rw [fieldNNN_toNat, toNat_wordNNN f a hf]; omega

@[simp] theorem fieldX_wordXNN (f : Nat) (x : Reg) (k : Byte) (hf : f < 16) : fieldX (wordXNN f x k) = x := by
  have := k.isLt
  have := x.isLt
  refine Fin.ext ?_
  rw [fieldX_val, toNat_wordXNN f x k hf]; omega

@[simp] theorem fieldNN_wordXNN (f : Nat) (x : Reg) (k : Byte) (hf : f < 16) : fieldNN (wordXNN f x k) = k := by
  have := k.isLt
  refine BitVec.eq_of_toNat_eq ?_
  rw [fieldNN_toNat, toNat_wordXNN f x k hf]; omega

@[simp] theorem fieldX_wordXYN (f : Nat) (x y : Reg) (n : Nat) (hf : f < 16) (hn : n < 16) :
    fieldX (wordXYN f x y n) = x := by
  have := y.isLt
  have := x.isLt
  refine Fin.ext ?_
  rw [fieldX_val, toNat_wordXYN f x y n hf hn]; omega

@[simp] theorem fieldY_wordXYN (f : Nat) (x y : Reg) (n : Nat) (hf : f < 16) (hn : n < 16) :
    fieldY (wordXYN f x y n) = y := by
  have := y.isLt
  refine Fin.ext ?_
  rw [fieldY_val, toNat_wordXYN f x y n hf hn]; omega

@[simp] theorem fieldN_wordXYN (f : Nat) (x y : Reg) (n : Nat) (hf : f < 16) (hn : n < 16) :
    fieldN (wordXYN f x y n) = n := by
  rw [fieldN_eq, toNat_wordXYN f x y n hf hn]; omega

theorem wordOfBytes_toNat (hi lo : Byte) : (wordOfBytes hi lo).toNat = hi.toNat * 256 + lo.toNat := by
  have hh := hi.isLt
  have hl := lo.isLt
  have e : (wordOfBytes hi lo).toNat = hi.toNat <<< 8 ||| lo.toNat := by
    have h16 : hi.toNat <<< 8 < 65536 := by rw [Nat.shiftLeft_eq]; omega
    simp only [wordOfBytes, BitVec.toNat_or, BitVec.toNat_shiftLeft, BitVec.toNat_setWidth]
    rw [Nat.mod_eq_of_lt (by omega : hi.toNat < 2 ^ 16), Nat.mod_eq_of_lt (by omega : lo.toNat < 2 ^ 16),
      Nat.mod_eq_of_lt (by omega : hi.toNat <<< 8 < 2 ^ 16)]
  rw [e, ← Nat.shiftLeft_add_eq_or_of_lt (by omega : lo.toNat < 2 ^ 8), Nat.shiftLeft_eq]

/-- Storing a word high byte first and reading it back big-endian gives the word (20_memory.md R73). -/
@[simp] theorem wordOfBytes_highByte_lowByte (w : Word) : wordOfBytes (highByte w) (lowByte w) = w := by
  have := w.isLt
  refine BitVec.eq_of_toNat_eq ?_
  rw [wordOfBytes_toNat]
  simp only [highByte, lowByte, BitVec.toNat_setWidth, BitVec.toNat_ushiftRight, Nat.shiftRight_eq_div_pow]
  omega

/-- The masks of the opcode map keep the family and the low `k` bits: 0xF000, 0xF00F, 0xF0FF, 0xFFFF with `k` 0, 4, 8, 12. -/
theorem toNat_and_mask (w m : Word) (k : Nat) (hk : k ≤ 12) (h : m.toNat = 0xF000 + (2 ^ k - 1)) :
    (w &&& m).toNat = w.toNat / 4096 * 4096 + w.toNat % 2 ^ k := by
  have hw := w.isLt
  have hpow : 2 ^ k ≤ 2 ^ 12 := Nat.pow_le_pow_right (by decide) hk
  have hpos : 0 < 2 ^ k := Nat.two_pow_pos k
  have hm : m.toNat = 0xF <<< 12 ||| (2 ^ k - 1) := by
    rw [h, ← Nat.shiftLeft_add_eq_or_of_lt (by omega), show 0xF <<< 12 = 0xF000 by rfl]
  have high : w.toNat &&& 0xF <<< 12 = (w.toNat / 4096) <<< 12 := by
    apply Nat.eq_of_testBit_eq
    intro i
    simp only [Nat.testBit_and, Nat.testBit_shiftLeft, show (4096 : Nat) = 2 ^ 12 by rfl, Nat.testBit_div_two_pow]
    by_cases hi : 12 ≤ i
    · rw [show (15 : Nat) = 2 ^ 4 - 1 by rfl, Nat.testBit_two_pow_sub_one]
      by_cases h16 : i < 16
      · simp [hi, show i - 12 < 4 by omega, show i - 12 + 12 = i by omega]
      · have : w.toNat.testBit i = false :=
          Nat.testBit_lt_two_pow (Nat.lt_of_lt_of_le hw (Nat.pow_le_pow_right (by decide) (by omega)))
        simp [this, show i - 12 + 12 = i by omega]
    · simp [hi]
  have hlt : w.toNat % 2 ^ k < 2 ^ 12 := Nat.lt_of_lt_of_le (Nat.mod_lt _ hpos) hpow
  rw [BitVec.toNat_and, hm, Nat.and_or_distrib_left, high, Nat.and_two_pow_sub_one_eq_mod,
    ← Nat.shiftLeft_add_eq_or_of_lt hlt, Nat.shiftLeft_eq]

/-- A row covers a word when the family and the selector bits are the row's. -/
theorem covers_iff (r : OpcodeRow) (w : Word) (k : Nat) (hk : k ≤ 12) (h : r.mask.toNat = 0xF000 + (2 ^ k - 1)) :
    r.covers w = true ↔ w.toNat / 4096 * 4096 + w.toNat % 2 ^ k = r.pattern.toNat := by
  rw [OpcodeRow.covers, beq_iff_eq, ← BitVec.toNat_inj, toNat_and_mask w r.mask k hk h]

/-- No two rows of the opcode map match one word (R107), by the bits both masks fix. -/
theorem opcodeTable_no_overlap :
    opcodeTable.Pairwise (fun r q => r.pattern &&& (r.mask &&& q.mask) ≠ q.pattern &&& (r.mask &&& q.mask)) := by
  decide

/-- The only error of decoding one word names that word. -/
theorem decodeWord_error (w : Word) (e : DecodeError) (h : decodeWord w = .error e) : e = .illegal w := by
  unfold decodeWord at h
  repeat' split at h
  all_goals first | exact (Except.error.inj h).symm | cases h

end Sys2Proof
end

