-- ==== Sys2Proof/Laws/Memory.lean ====
section
/-! SUPPORT. The laws of memory: a write reads back, leaves every other byte alone, and keeps the canonical form. -/

namespace Sys2Proof.Machine.Memory

/-- An address below every listed one reads as its reset contents. -/
theorem read_unlisted (m : List Host.Cell) (a : Nat) (h : ∀ c ∈ m, c.1 ≠ a) : read m a = resetByte a := by
  induction m with
  | nil => rfl
  | cons c m ih =>
    obtain ⟨k, b⟩ := c
    have hk : k ≠ a := h (k, b) (by simp)
    simp [read, hk, ih (fun c hc => h c (by simp [hc]))]

/-- A write leaves every other address alone. -/
theorem read_write_other (m : List Host.Cell) (a a' : Nat) (b : Byte) (h : a' ≠ a) :
    read (write m a b) a' = read m a' := by
  induction m with
  | nil => by_cases hb : b = resetByte a <;> simp [write, read, hb, h.symm]
  | cons c m ih =>
    obtain ⟨k, d⟩ := c
    simp only [write]
    split
    · split <;> simp [read, h.symm]
    · split
      · next hk =>
        have : k ≠ a' := fun e => h (e ▸ hk.symm)
        split <;> simp [read, h.symm, this]
      · simp [read, ih]

/-- A write reads back. -/
theorem read_write_same (m : List Host.Cell) (a : Nat) (b : Byte) (hm : wf m) : read (write m a b) a = b := by
  induction m with
  | nil => by_cases hb : b = resetByte a <;> simp [write, read, hb]
  | cons c m ih =>
    obtain ⟨k, d⟩ := c
    obtain ⟨hs, hv⟩ := hm
    rw [List.pairwise_cons] at hs
    have ih := ih ⟨hs.2, fun c hc => hv c (by simp [hc])⟩
    simp only [write]
    split
    · next hk =>
      split
      · next hb =>
        rw [read_unlisted _ _ (by
          intro c hc
          rcases List.mem_cons.1 hc with rfl | hc
          · exact Nat.ne_of_gt hk
          · exact Nat.ne_of_gt (Nat.lt_trans hk (hs.1 c hc))), hb]
      · simp [read]
    · split
      · next hk =>
        split
        · next hb =>
          rw [read_unlisted _ _ (fun c hc => Nat.ne_of_gt (hk ▸ hs.1 c hc)), hb]
        · simp [read]
      · next hk => simp [read, Ne.symm hk, ih]

/-- Every address a write lists was listed before or is the address written, with a byte that is not its reset contents. -/
theorem mem_write (m : List Host.Cell) (a : Nat) (b : Byte) (c : Host.Cell) (h : c ∈ write m a b) :
    c ∈ m ∨ (c = (a, b) ∧ b ≠ resetByte a) := by
  induction m with
  | nil =>
    by_cases hb : b = resetByte a
    · simp [write, hb] at h
    · simp [write, hb] at h; exact .inr ⟨h, hb⟩
  | cons d m ih =>
    obtain ⟨k, e⟩ := d
    simp only [write] at h
    split at h
    · split at h
      · exact .inl h
      · next hb =>
        rcases List.mem_cons.1 h with h | h
        · exact .inr ⟨h, hb⟩
        · exact .inl h
    · split at h
      · split at h
        · exact .inl (by simp [h])
        · next hb =>
          rcases List.mem_cons.1 h with h | h
          · exact .inr ⟨h, hb⟩
          · exact .inl (by simp [h])
      · rcases List.mem_cons.1 h with h | h
        · exact .inl (by simp [h])
        · rcases ih h with h | h
          · exact .inl (by simp [h])
          · exact .inr h

/-- A write below MEM_SIZE keeps the canonical form. -/
theorem write_wf (m : List Host.Cell) (a : Nat) (b : Byte) (hm : wf m) (ha : a < Config.memSize) :
    wf (write m a b) := by
  constructor
  · induction m with
    | nil => by_cases hb : b = resetByte a <;> simp [write, hb]
    | cons d m ih =>
      obtain ⟨k, e⟩ := d
      obtain ⟨hs, hv⟩ := hm
      have hs' := List.pairwise_cons.1 hs
      have ih := ih ⟨hs'.2, fun c hc => hv c (by simp [hc])⟩
      simp only [write]
      split
      · next hk =>
        split
        · exact hs
        · refine List.pairwise_cons.2 ⟨fun c hc => ?_, hs⟩
          rcases List.mem_cons.1 hc with rfl | hc
          · exact hk
          · exact Nat.lt_trans hk (hs'.1 c hc)
      · next hk =>
        split
        · next hak =>
          split
          · exact hs'.2
          · exact List.pairwise_cons.2 ⟨fun c hc => hak ▸ hs'.1 c hc, hs'.2⟩
        · next hak =>
          refine List.pairwise_cons.2 ⟨fun c hc => ?_, ih⟩
          rcases mem_write m a b c hc with h | ⟨rfl, -⟩
          · exact hs'.1 c h
          · exact Nat.lt_of_le_of_ne (Nat.not_lt.1 hk) (Ne.symm hak)
  · intro c hc
    rcases mem_write m a b c hc with h | ⟨rfl, hb⟩
    · exact hm.2 c h
    · exact ⟨ha, hb⟩

/-- A run of bytes below MEM_SIZE keeps the canonical form. -/
theorem writeList_wf (bs : List Byte) (m : List Host.Cell) (a : Nat) (hm : wf m) (ha : a + bs.length ≤ Config.memSize) :
    wf (writeList m a bs) := by
  induction bs generalizing m a with
  | nil => exact hm
  | cons b bs ih =>
    simp only [List.length_cons] at ha
    exact ih _ _ (write_wf m a b hm (by omega)) (by omega)

/-- A run of bytes leaves every address outside it alone. -/
theorem read_writeList_other (bs : List Byte) (m : List Host.Cell) (a a' : Nat)
    (h : a' < a ∨ a + bs.length ≤ a') : read (writeList m a bs) a' = read m a' := by
  induction bs generalizing m a with
  | nil => rfl
  | cons b bs ih =>
    simp only [List.length_cons] at h
    rw [writeList, ih _ _ (by omega), read_write_other _ _ _ _ (by omega)]

/-- A run of bytes reads back. -/
theorem read_writeList_same (bs : List Byte) (m : List Host.Cell) (a k : Nat) (hm : wf m)
    (ha : a + bs.length ≤ Config.memSize) (hk : k < bs.length) : read (writeList m a bs) (a + k) = bs[k] := by
  induction bs generalizing m a k with
  | nil => simp at hk
  | cons b bs ih =>
    simp only [List.length_cons] at ha hk
    have hw := write_wf m a b hm (by omega)
    cases k with
    | zero => rw [writeList, read_writeList_other _ _ _ _ (by omega)]; simpa using read_write_same m a b hm
    | succ k =>
      have := ih (write m a b) (a + 1) k hw (by omega) (by omega)
      rw [writeList, show a + (k + 1) = a + 1 + k by omega, this]
      rfl

theorem reset_wf : wf State.reset.mem := by decide

end Sys2Proof.Machine.Memory

namespace Sys2Proof.Machine.State

/-- A stored byte reads back (20_memory.md R81). -/
theorem writeByte_readByte_same (s : State) (a : Nat) (b : Byte) (hm : Memory.wf s.mem) :
    (s.writeByte a b).readByte a = b := Memory.read_write_same s.mem a b hm

/-- A store changes no other byte (R79). -/
theorem writeByte_readByte_other (s : State) (a a' : Nat) (b : Byte) (h : a' ≠ a) :
    (s.writeByte a b).readByte a' = s.readByte a' := Memory.read_write_other s.mem a a' b h

theorem writeByte_readByte (s : State) (a a' : Nat) (b : Byte) (hm : Memory.wf s.mem) :
    (s.writeByte a b).readByte a' = if a' = a then b else s.readByte a' := by
  by_cases h : a' = a
  · subst h; simp [writeByte_readByte_same s _ b hm]
  · simp [h, writeByte_readByte_other]

/-- The model's own memory invariant is kept by every store below MEM_SIZE. -/
theorem writeByte_wf (s : State) (a : Nat) (b : Byte) (hm : Memory.wf s.mem) (ha : a < Config.memSize) :
    Memory.wf (s.writeByte a b).mem := Memory.write_wf s.mem a b hm ha

end Sys2Proof.Machine.State
end

