-- ==== Sys2Proof/Laws/State.lean ====
section
/-! SUPPORT. One lemma a field and a field accessor for every update of the state, each true by `rfl`, and the
read-after-write laws of the indexed items, so that no later proof unfolds a record update. -/

namespace Sys2Proof.Machine.State

variable (s : State)

/-! ### setReg -/

@[simp] theorem setReg_mem (j : Reg) (v : Byte) : (s.setReg j v).mem = s.mem := rfl
@[simp] theorem setReg_readByte (j : Reg) (v : Byte) (a : Nat) : (s.setReg j v).readByte a = s.readByte a := rfl
@[simp] theorem setReg_I (j : Reg) (v : Byte) : (s.setReg j v).I = s.I := rfl
@[simp] theorem setReg_pc (j : Reg) (v : Byte) : (s.setReg j v).pc = s.pc := rfl
@[simp] theorem setReg_stack (j : Reg) (v : Byte) : (s.setReg j v).stack = s.stack := rfl
@[simp] theorem setReg_entry (j : Reg) (v : Byte) (k' : Fin 16) : (s.setReg j v).entry k' = s.entry k' := rfl
@[simp] theorem setReg_sp (j : Reg) (v : Byte) : (s.setReg j v).sp = s.sp := rfl
@[simp] theorem setReg_DT (j : Reg) (v : Byte) : (s.setReg j v).DT = s.DT := rfl
@[simp] theorem setReg_ST (j : Reg) (v : Byte) : (s.setReg j v).ST = s.ST := rfl
@[simp] theorem setReg_fb (j : Reg) (v : Byte) : (s.setReg j v).fb = s.fb := rfl
@[simp] theorem setReg_pixel (j : Reg) (v : Byte) (c : Col) (r : Row) : (s.setReg j v).pixel c r = s.pixel c r := rfl
@[simp] theorem setReg_keys (j : Reg) (v : Byte) : (s.setReg j v).keys = s.keys := rfl
@[simp] theorem setReg_key (j : Reg) (v : Byte) (k' : Key) : (s.setReg j v).key k' = s.key k' := rfl
@[simp] theorem setReg_redraw (j : Reg) (v : Byte) : (s.setReg j v).redraw = s.redraw := rfl
@[simp] theorem setReg_cur (j : Reg) (v : Byte) : (s.setReg j v).cur = s.cur := rfl
@[simp] theorem setReg_status (j : Reg) (v : Byte) : (s.setReg j v).status = s.status := rfl
@[simp] theorem setReg_fault (j : Reg) (v : Byte) : (s.setReg j v).fault = s.fault := rfl
@[simp] theorem setReg_rngCalls (j : Reg) (v : Byte) : (s.setReg j v).rngCalls = s.rngCalls := rfl

/-! ### setFlag -/

@[simp] theorem setFlag_mem (f : Byte) : (s.setFlag f).mem = s.mem := rfl
@[simp] theorem setFlag_readByte (f : Byte) (a : Nat) : (s.setFlag f).readByte a = s.readByte a := rfl
@[simp] theorem setFlag_I (f : Byte) : (s.setFlag f).I = s.I := rfl
@[simp] theorem setFlag_pc (f : Byte) : (s.setFlag f).pc = s.pc := rfl
@[simp] theorem setFlag_stack (f : Byte) : (s.setFlag f).stack = s.stack := rfl
@[simp] theorem setFlag_entry (f : Byte) (k' : Fin 16) : (s.setFlag f).entry k' = s.entry k' := rfl
@[simp] theorem setFlag_sp (f : Byte) : (s.setFlag f).sp = s.sp := rfl
@[simp] theorem setFlag_DT (f : Byte) : (s.setFlag f).DT = s.DT := rfl
@[simp] theorem setFlag_ST (f : Byte) : (s.setFlag f).ST = s.ST := rfl
@[simp] theorem setFlag_fb (f : Byte) : (s.setFlag f).fb = s.fb := rfl
@[simp] theorem setFlag_pixel (f : Byte) (c : Col) (r : Row) : (s.setFlag f).pixel c r = s.pixel c r := rfl
@[simp] theorem setFlag_keys (f : Byte) : (s.setFlag f).keys = s.keys := rfl
@[simp] theorem setFlag_key (f : Byte) (k' : Key) : (s.setFlag f).key k' = s.key k' := rfl
@[simp] theorem setFlag_redraw (f : Byte) : (s.setFlag f).redraw = s.redraw := rfl
@[simp] theorem setFlag_cur (f : Byte) : (s.setFlag f).cur = s.cur := rfl
@[simp] theorem setFlag_status (f : Byte) : (s.setFlag f).status = s.status := rfl
@[simp] theorem setFlag_fault (f : Byte) : (s.setFlag f).fault = s.fault := rfl
@[simp] theorem setFlag_rngCalls (f : Byte) : (s.setFlag f).rngCalls = s.rngCalls := rfl

/-! ### writeByte -/

@[simp] theorem writeByte_mem (b : Nat) (v : Byte) : (s.writeByte b v).mem = Memory.write s.mem b v := rfl
@[simp] theorem writeByte_x (b : Nat) (v : Byte) : (s.writeByte b v).x = s.x := rfl
@[simp] theorem writeByte_reg (b : Nat) (v : Byte) (k' : Reg) : (s.writeByte b v).reg k' = s.reg k' := rfl
@[simp] theorem writeByte_I (b : Nat) (v : Byte) : (s.writeByte b v).I = s.I := rfl
@[simp] theorem writeByte_pc (b : Nat) (v : Byte) : (s.writeByte b v).pc = s.pc := rfl
@[simp] theorem writeByte_stack (b : Nat) (v : Byte) : (s.writeByte b v).stack = s.stack := rfl
@[simp] theorem writeByte_entry (b : Nat) (v : Byte) (k' : Fin 16) : (s.writeByte b v).entry k' = s.entry k' := rfl
@[simp] theorem writeByte_sp (b : Nat) (v : Byte) : (s.writeByte b v).sp = s.sp := rfl
@[simp] theorem writeByte_DT (b : Nat) (v : Byte) : (s.writeByte b v).DT = s.DT := rfl
@[simp] theorem writeByte_ST (b : Nat) (v : Byte) : (s.writeByte b v).ST = s.ST := rfl
@[simp] theorem writeByte_fb (b : Nat) (v : Byte) : (s.writeByte b v).fb = s.fb := rfl
@[simp] theorem writeByte_pixel (b : Nat) (v : Byte) (c : Col) (r : Row) : (s.writeByte b v).pixel c r = s.pixel c r := rfl
@[simp] theorem writeByte_keys (b : Nat) (v : Byte) : (s.writeByte b v).keys = s.keys := rfl
@[simp] theorem writeByte_key (b : Nat) (v : Byte) (k' : Key) : (s.writeByte b v).key k' = s.key k' := rfl
@[simp] theorem writeByte_redraw (b : Nat) (v : Byte) : (s.writeByte b v).redraw = s.redraw := rfl
@[simp] theorem writeByte_cur (b : Nat) (v : Byte) : (s.writeByte b v).cur = s.cur := rfl
@[simp] theorem writeByte_status (b : Nat) (v : Byte) : (s.writeByte b v).status = s.status := rfl
@[simp] theorem writeByte_fault (b : Nat) (v : Byte) : (s.writeByte b v).fault = s.fault := rfl
@[simp] theorem writeByte_rngCalls (b : Nat) (v : Byte) : (s.writeByte b v).rngCalls = s.rngCalls := rfl

/-! ### setI -/

@[simp] theorem setI_mem (v : Word) : (s.setI v).mem = s.mem := rfl
@[simp] theorem setI_readByte (v : Word) (a : Nat) : (s.setI v).readByte a = s.readByte a := rfl
@[simp] theorem setI_x (v : Word) : (s.setI v).x = s.x := rfl
@[simp] theorem setI_reg (v : Word) (k' : Reg) : (s.setI v).reg k' = s.reg k' := rfl
@[simp] theorem setI_I (v : Word) : (s.setI v).I = v := rfl
@[simp] theorem setI_pc (v : Word) : (s.setI v).pc = s.pc := rfl
@[simp] theorem setI_stack (v : Word) : (s.setI v).stack = s.stack := rfl
@[simp] theorem setI_entry (v : Word) (k' : Fin 16) : (s.setI v).entry k' = s.entry k' := rfl
@[simp] theorem setI_sp (v : Word) : (s.setI v).sp = s.sp := rfl
@[simp] theorem setI_DT (v : Word) : (s.setI v).DT = s.DT := rfl
@[simp] theorem setI_ST (v : Word) : (s.setI v).ST = s.ST := rfl
@[simp] theorem setI_fb (v : Word) : (s.setI v).fb = s.fb := rfl
@[simp] theorem setI_pixel (v : Word) (c : Col) (r : Row) : (s.setI v).pixel c r = s.pixel c r := rfl
@[simp] theorem setI_keys (v : Word) : (s.setI v).keys = s.keys := rfl
@[simp] theorem setI_key (v : Word) (k' : Key) : (s.setI v).key k' = s.key k' := rfl
@[simp] theorem setI_redraw (v : Word) : (s.setI v).redraw = s.redraw := rfl
@[simp] theorem setI_cur (v : Word) : (s.setI v).cur = s.cur := rfl
@[simp] theorem setI_status (v : Word) : (s.setI v).status = s.status := rfl
@[simp] theorem setI_fault (v : Word) : (s.setI v).fault = s.fault := rfl
@[simp] theorem setI_rngCalls (v : Word) : (s.setI v).rngCalls = s.rngCalls := rfl

/-! ### setPc -/

@[simp] theorem setPc_mem (v : Word) : (s.setPc v).mem = s.mem := rfl
@[simp] theorem setPc_readByte (v : Word) (a : Nat) : (s.setPc v).readByte a = s.readByte a := rfl
@[simp] theorem setPc_x (v : Word) : (s.setPc v).x = s.x := rfl
@[simp] theorem setPc_reg (v : Word) (k' : Reg) : (s.setPc v).reg k' = s.reg k' := rfl
@[simp] theorem setPc_I (v : Word) : (s.setPc v).I = s.I := rfl
@[simp] theorem setPc_pc (v : Word) : (s.setPc v).pc = v := rfl
@[simp] theorem setPc_stack (v : Word) : (s.setPc v).stack = s.stack := rfl
@[simp] theorem setPc_entry (v : Word) (k' : Fin 16) : (s.setPc v).entry k' = s.entry k' := rfl
@[simp] theorem setPc_sp (v : Word) : (s.setPc v).sp = s.sp := rfl
@[simp] theorem setPc_DT (v : Word) : (s.setPc v).DT = s.DT := rfl
@[simp] theorem setPc_ST (v : Word) : (s.setPc v).ST = s.ST := rfl
@[simp] theorem setPc_fb (v : Word) : (s.setPc v).fb = s.fb := rfl
@[simp] theorem setPc_pixel (v : Word) (c : Col) (r : Row) : (s.setPc v).pixel c r = s.pixel c r := rfl
@[simp] theorem setPc_keys (v : Word) : (s.setPc v).keys = s.keys := rfl
@[simp] theorem setPc_key (v : Word) (k' : Key) : (s.setPc v).key k' = s.key k' := rfl
@[simp] theorem setPc_redraw (v : Word) : (s.setPc v).redraw = s.redraw := rfl
@[simp] theorem setPc_cur (v : Word) : (s.setPc v).cur = s.cur := rfl
@[simp] theorem setPc_status (v : Word) : (s.setPc v).status = s.status := rfl
@[simp] theorem setPc_fault (v : Word) : (s.setPc v).fault = s.fault := rfl
@[simp] theorem setPc_rngCalls (v : Word) : (s.setPc v).rngCalls = s.rngCalls := rfl

/-! ### advance -/

@[simp] theorem advance_mem : s.advance.mem = s.mem := rfl
@[simp] theorem advance_readByte (a : Nat) : s.advance.readByte a = s.readByte a := rfl
@[simp] theorem advance_x : s.advance.x = s.x := rfl
@[simp] theorem advance_reg (k' : Reg) : s.advance.reg k' = s.reg k' := rfl
@[simp] theorem advance_I : s.advance.I = s.I := rfl
@[simp] theorem advance_pc : s.advance.pc = s.pc + 2 := rfl
@[simp] theorem advance_stack : s.advance.stack = s.stack := rfl
@[simp] theorem advance_entry (k' : Fin 16) : s.advance.entry k' = s.entry k' := rfl
@[simp] theorem advance_sp : s.advance.sp = s.sp := rfl
@[simp] theorem advance_DT : s.advance.DT = s.DT := rfl
@[simp] theorem advance_ST : s.advance.ST = s.ST := rfl
@[simp] theorem advance_fb : s.advance.fb = s.fb := rfl
@[simp] theorem advance_pixel (c : Col) (r : Row) : s.advance.pixel c r = s.pixel c r := rfl
@[simp] theorem advance_keys : s.advance.keys = s.keys := rfl
@[simp] theorem advance_key (k' : Key) : s.advance.key k' = s.key k' := rfl
@[simp] theorem advance_redraw : s.advance.redraw = s.redraw := rfl
@[simp] theorem advance_cur : s.advance.cur = s.cur := rfl
@[simp] theorem advance_status : s.advance.status = s.status := rfl
@[simp] theorem advance_fault : s.advance.fault = s.fault := rfl
@[simp] theorem advance_rngCalls : s.advance.rngCalls = s.rngCalls := rfl

/-! ### skipIf -/

@[simp] theorem skipIf_mem (b : Bool) : (s.skipIf b).mem = s.mem := rfl
@[simp] theorem skipIf_readByte (b : Bool) (a : Nat) : (s.skipIf b).readByte a = s.readByte a := rfl
@[simp] theorem skipIf_x (b : Bool) : (s.skipIf b).x = s.x := rfl
@[simp] theorem skipIf_reg (b : Bool) (k' : Reg) : (s.skipIf b).reg k' = s.reg k' := rfl
@[simp] theorem skipIf_I (b : Bool) : (s.skipIf b).I = s.I := rfl
@[simp] theorem skipIf_pc (b : Bool) : (s.skipIf b).pc = if b then s.pc + 4 else s.pc + 2 := rfl
@[simp] theorem skipIf_stack (b : Bool) : (s.skipIf b).stack = s.stack := rfl
@[simp] theorem skipIf_entry (b : Bool) (k' : Fin 16) : (s.skipIf b).entry k' = s.entry k' := rfl
@[simp] theorem skipIf_sp (b : Bool) : (s.skipIf b).sp = s.sp := rfl
@[simp] theorem skipIf_DT (b : Bool) : (s.skipIf b).DT = s.DT := rfl
@[simp] theorem skipIf_ST (b : Bool) : (s.skipIf b).ST = s.ST := rfl
@[simp] theorem skipIf_fb (b : Bool) : (s.skipIf b).fb = s.fb := rfl
@[simp] theorem skipIf_pixel (b : Bool) (c : Col) (r : Row) : (s.skipIf b).pixel c r = s.pixel c r := rfl
@[simp] theorem skipIf_keys (b : Bool) : (s.skipIf b).keys = s.keys := rfl
@[simp] theorem skipIf_key (b : Bool) (k' : Key) : (s.skipIf b).key k' = s.key k' := rfl
@[simp] theorem skipIf_redraw (b : Bool) : (s.skipIf b).redraw = s.redraw := rfl
@[simp] theorem skipIf_cur (b : Bool) : (s.skipIf b).cur = s.cur := rfl
@[simp] theorem skipIf_status (b : Bool) : (s.skipIf b).status = s.status := rfl
@[simp] theorem skipIf_fault (b : Bool) : (s.skipIf b).fault = s.fault := rfl
@[simp] theorem skipIf_rngCalls (b : Bool) : (s.skipIf b).rngCalls = s.rngCalls := rfl

/-! ### setDT -/

@[simp] theorem setDT_mem (v : Byte) : (s.setDT v).mem = s.mem := rfl
@[simp] theorem setDT_readByte (v : Byte) (a : Nat) : (s.setDT v).readByte a = s.readByte a := rfl
@[simp] theorem setDT_x (v : Byte) : (s.setDT v).x = s.x := rfl
@[simp] theorem setDT_reg (v : Byte) (k' : Reg) : (s.setDT v).reg k' = s.reg k' := rfl
@[simp] theorem setDT_I (v : Byte) : (s.setDT v).I = s.I := rfl
@[simp] theorem setDT_pc (v : Byte) : (s.setDT v).pc = s.pc := rfl
@[simp] theorem setDT_stack (v : Byte) : (s.setDT v).stack = s.stack := rfl
@[simp] theorem setDT_entry (v : Byte) (k' : Fin 16) : (s.setDT v).entry k' = s.entry k' := rfl
@[simp] theorem setDT_sp (v : Byte) : (s.setDT v).sp = s.sp := rfl
@[simp] theorem setDT_DT (v : Byte) : (s.setDT v).DT = v := rfl
@[simp] theorem setDT_ST (v : Byte) : (s.setDT v).ST = s.ST := rfl
@[simp] theorem setDT_fb (v : Byte) : (s.setDT v).fb = s.fb := rfl
@[simp] theorem setDT_pixel (v : Byte) (c : Col) (r : Row) : (s.setDT v).pixel c r = s.pixel c r := rfl
@[simp] theorem setDT_keys (v : Byte) : (s.setDT v).keys = s.keys := rfl
@[simp] theorem setDT_key (v : Byte) (k' : Key) : (s.setDT v).key k' = s.key k' := rfl
@[simp] theorem setDT_redraw (v : Byte) : (s.setDT v).redraw = s.redraw := rfl
@[simp] theorem setDT_cur (v : Byte) : (s.setDT v).cur = s.cur := rfl
@[simp] theorem setDT_status (v : Byte) : (s.setDT v).status = s.status := rfl
@[simp] theorem setDT_fault (v : Byte) : (s.setDT v).fault = s.fault := rfl
@[simp] theorem setDT_rngCalls (v : Byte) : (s.setDT v).rngCalls = s.rngCalls := rfl

/-! ### setST -/

@[simp] theorem setST_mem (v : Byte) : (s.setST v).mem = s.mem := rfl
@[simp] theorem setST_readByte (v : Byte) (a : Nat) : (s.setST v).readByte a = s.readByte a := rfl
@[simp] theorem setST_x (v : Byte) : (s.setST v).x = s.x := rfl
@[simp] theorem setST_reg (v : Byte) (k' : Reg) : (s.setST v).reg k' = s.reg k' := rfl
@[simp] theorem setST_I (v : Byte) : (s.setST v).I = s.I := rfl
@[simp] theorem setST_pc (v : Byte) : (s.setST v).pc = s.pc := rfl
@[simp] theorem setST_stack (v : Byte) : (s.setST v).stack = s.stack := rfl
@[simp] theorem setST_entry (v : Byte) (k' : Fin 16) : (s.setST v).entry k' = s.entry k' := rfl
@[simp] theorem setST_sp (v : Byte) : (s.setST v).sp = s.sp := rfl
@[simp] theorem setST_DT (v : Byte) : (s.setST v).DT = s.DT := rfl
@[simp] theorem setST_ST (v : Byte) : (s.setST v).ST = v := rfl
@[simp] theorem setST_fb (v : Byte) : (s.setST v).fb = s.fb := rfl
@[simp] theorem setST_pixel (v : Byte) (c : Col) (r : Row) : (s.setST v).pixel c r = s.pixel c r := rfl
@[simp] theorem setST_keys (v : Byte) : (s.setST v).keys = s.keys := rfl
@[simp] theorem setST_key (v : Byte) (k' : Key) : (s.setST v).key k' = s.key k' := rfl
@[simp] theorem setST_redraw (v : Byte) : (s.setST v).redraw = s.redraw := rfl
@[simp] theorem setST_cur (v : Byte) : (s.setST v).cur = s.cur := rfl
@[simp] theorem setST_status (v : Byte) : (s.setST v).status = s.status := rfl
@[simp] theorem setST_fault (v : Byte) : (s.setST v).fault = s.fault := rfl
@[simp] theorem setST_rngCalls (v : Byte) : (s.setST v).rngCalls = s.rngCalls := rfl

/-! ### setPixel -/

@[simp] theorem setPixel_mem (d : Col) (q : Row) (b : Bool) : (s.setPixel d q b).mem = s.mem := rfl
@[simp] theorem setPixel_readByte (d : Col) (q : Row) (b : Bool) (a : Nat) : (s.setPixel d q b).readByte a = s.readByte a := rfl
@[simp] theorem setPixel_x (d : Col) (q : Row) (b : Bool) : (s.setPixel d q b).x = s.x := rfl
@[simp] theorem setPixel_reg (d : Col) (q : Row) (b : Bool) (k' : Reg) : (s.setPixel d q b).reg k' = s.reg k' := rfl
@[simp] theorem setPixel_I (d : Col) (q : Row) (b : Bool) : (s.setPixel d q b).I = s.I := rfl
@[simp] theorem setPixel_pc (d : Col) (q : Row) (b : Bool) : (s.setPixel d q b).pc = s.pc := rfl
@[simp] theorem setPixel_stack (d : Col) (q : Row) (b : Bool) : (s.setPixel d q b).stack = s.stack := rfl
@[simp] theorem setPixel_entry (d : Col) (q : Row) (b : Bool) (k' : Fin 16) : (s.setPixel d q b).entry k' = s.entry k' := rfl
@[simp] theorem setPixel_sp (d : Col) (q : Row) (b : Bool) : (s.setPixel d q b).sp = s.sp := rfl
@[simp] theorem setPixel_DT (d : Col) (q : Row) (b : Bool) : (s.setPixel d q b).DT = s.DT := rfl
@[simp] theorem setPixel_ST (d : Col) (q : Row) (b : Bool) : (s.setPixel d q b).ST = s.ST := rfl
@[simp] theorem setPixel_keys (d : Col) (q : Row) (b : Bool) : (s.setPixel d q b).keys = s.keys := rfl
@[simp] theorem setPixel_key (d : Col) (q : Row) (b : Bool) (k' : Key) : (s.setPixel d q b).key k' = s.key k' := rfl
@[simp] theorem setPixel_redraw (d : Col) (q : Row) (b : Bool) : (s.setPixel d q b).redraw = s.redraw := rfl
@[simp] theorem setPixel_cur (d : Col) (q : Row) (b : Bool) : (s.setPixel d q b).cur = s.cur := rfl
@[simp] theorem setPixel_status (d : Col) (q : Row) (b : Bool) : (s.setPixel d q b).status = s.status := rfl
@[simp] theorem setPixel_fault (d : Col) (q : Row) (b : Bool) : (s.setPixel d q b).fault = s.fault := rfl
@[simp] theorem setPixel_rngCalls (d : Col) (q : Row) (b : Bool) : (s.setPixel d q b).rngCalls = s.rngCalls := rfl

/-! ### clearPixels -/

@[simp] theorem clearPixels_mem : s.clearPixels.mem = s.mem := rfl
@[simp] theorem clearPixels_readByte (a : Nat) : s.clearPixels.readByte a = s.readByte a := rfl
@[simp] theorem clearPixels_x : s.clearPixels.x = s.x := rfl
@[simp] theorem clearPixels_reg (k' : Reg) : s.clearPixels.reg k' = s.reg k' := rfl
@[simp] theorem clearPixels_I : s.clearPixels.I = s.I := rfl
@[simp] theorem clearPixels_pc : s.clearPixels.pc = s.pc := rfl
@[simp] theorem clearPixels_stack : s.clearPixels.stack = s.stack := rfl
@[simp] theorem clearPixels_entry (k' : Fin 16) : s.clearPixels.entry k' = s.entry k' := rfl
@[simp] theorem clearPixels_sp : s.clearPixels.sp = s.sp := rfl
@[simp] theorem clearPixels_DT : s.clearPixels.DT = s.DT := rfl
@[simp] theorem clearPixels_ST : s.clearPixels.ST = s.ST := rfl
@[simp] theorem clearPixels_fb : s.clearPixels.fb = Display.clear := rfl
@[simp] theorem clearPixels_keys : s.clearPixels.keys = s.keys := rfl
@[simp] theorem clearPixels_key (k' : Key) : s.clearPixels.key k' = s.key k' := rfl
@[simp] theorem clearPixels_redraw : s.clearPixels.redraw = s.redraw := rfl
@[simp] theorem clearPixels_cur : s.clearPixels.cur = s.cur := rfl
@[simp] theorem clearPixels_status : s.clearPixels.status = s.status := rfl
@[simp] theorem clearPixels_fault : s.clearPixels.fault = s.fault := rfl
@[simp] theorem clearPixels_rngCalls : s.clearPixels.rngCalls = s.rngCalls := rfl

/-! ### setKey -/

@[simp] theorem setKey_mem (j : Key) (b : Bool) : (s.setKey j b).mem = s.mem := rfl
@[simp] theorem setKey_readByte (j : Key) (b : Bool) (a : Nat) : (s.setKey j b).readByte a = s.readByte a := rfl
@[simp] theorem setKey_x (j : Key) (b : Bool) : (s.setKey j b).x = s.x := rfl
@[simp] theorem setKey_reg (j : Key) (b : Bool) (k' : Reg) : (s.setKey j b).reg k' = s.reg k' := rfl
@[simp] theorem setKey_I (j : Key) (b : Bool) : (s.setKey j b).I = s.I := rfl
@[simp] theorem setKey_pc (j : Key) (b : Bool) : (s.setKey j b).pc = s.pc := rfl
@[simp] theorem setKey_stack (j : Key) (b : Bool) : (s.setKey j b).stack = s.stack := rfl
@[simp] theorem setKey_entry (j : Key) (b : Bool) (k' : Fin 16) : (s.setKey j b).entry k' = s.entry k' := rfl
@[simp] theorem setKey_sp (j : Key) (b : Bool) : (s.setKey j b).sp = s.sp := rfl
@[simp] theorem setKey_DT (j : Key) (b : Bool) : (s.setKey j b).DT = s.DT := rfl
@[simp] theorem setKey_ST (j : Key) (b : Bool) : (s.setKey j b).ST = s.ST := rfl
@[simp] theorem setKey_fb (j : Key) (b : Bool) : (s.setKey j b).fb = s.fb := rfl
@[simp] theorem setKey_pixel (j : Key) (b : Bool) (c : Col) (r : Row) : (s.setKey j b).pixel c r = s.pixel c r := rfl
@[simp] theorem setKey_redraw (j : Key) (b : Bool) : (s.setKey j b).redraw = s.redraw := rfl
@[simp] theorem setKey_cur (j : Key) (b : Bool) : (s.setKey j b).cur = s.cur := rfl
@[simp] theorem setKey_status (j : Key) (b : Bool) : (s.setKey j b).status = s.status := rfl
@[simp] theorem setKey_fault (j : Key) (b : Bool) : (s.setKey j b).fault = s.fault := rfl
@[simp] theorem setKey_rngCalls (j : Key) (b : Bool) : (s.setKey j b).rngCalls = s.rngCalls := rfl

/-! ### setRedraw -/

@[simp] theorem setRedraw_mem (b : Bool) : (s.setRedraw b).mem = s.mem := rfl
@[simp] theorem setRedraw_readByte (b : Bool) (a : Nat) : (s.setRedraw b).readByte a = s.readByte a := rfl
@[simp] theorem setRedraw_x (b : Bool) : (s.setRedraw b).x = s.x := rfl
@[simp] theorem setRedraw_reg (b : Bool) (k' : Reg) : (s.setRedraw b).reg k' = s.reg k' := rfl
@[simp] theorem setRedraw_I (b : Bool) : (s.setRedraw b).I = s.I := rfl
@[simp] theorem setRedraw_pc (b : Bool) : (s.setRedraw b).pc = s.pc := rfl
@[simp] theorem setRedraw_stack (b : Bool) : (s.setRedraw b).stack = s.stack := rfl
@[simp] theorem setRedraw_entry (b : Bool) (k' : Fin 16) : (s.setRedraw b).entry k' = s.entry k' := rfl
@[simp] theorem setRedraw_sp (b : Bool) : (s.setRedraw b).sp = s.sp := rfl
@[simp] theorem setRedraw_DT (b : Bool) : (s.setRedraw b).DT = s.DT := rfl
@[simp] theorem setRedraw_ST (b : Bool) : (s.setRedraw b).ST = s.ST := rfl
@[simp] theorem setRedraw_fb (b : Bool) : (s.setRedraw b).fb = s.fb := rfl
@[simp] theorem setRedraw_pixel (b : Bool) (c : Col) (r : Row) : (s.setRedraw b).pixel c r = s.pixel c r := rfl
@[simp] theorem setRedraw_keys (b : Bool) : (s.setRedraw b).keys = s.keys := rfl
@[simp] theorem setRedraw_key (b : Bool) (k' : Key) : (s.setRedraw b).key k' = s.key k' := rfl
@[simp] theorem setRedraw_redraw (b : Bool) : (s.setRedraw b).redraw = b := rfl
@[simp] theorem setRedraw_cur (b : Bool) : (s.setRedraw b).cur = s.cur := rfl
@[simp] theorem setRedraw_status (b : Bool) : (s.setRedraw b).status = s.status := rfl
@[simp] theorem setRedraw_fault (b : Bool) : (s.setRedraw b).fault = s.fault := rfl
@[simp] theorem setRedraw_rngCalls (b : Bool) : (s.setRedraw b).rngCalls = s.rngCalls := rfl

/-! ### setCur -/

@[simp] theorem setCur_mem (w : Word) : (s.setCur w).mem = s.mem := rfl
@[simp] theorem setCur_readByte (w : Word) (a : Nat) : (s.setCur w).readByte a = s.readByte a := rfl
@[simp] theorem setCur_x (w : Word) : (s.setCur w).x = s.x := rfl
@[simp] theorem setCur_reg (w : Word) (k' : Reg) : (s.setCur w).reg k' = s.reg k' := rfl
@[simp] theorem setCur_I (w : Word) : (s.setCur w).I = s.I := rfl
@[simp] theorem setCur_pc (w : Word) : (s.setCur w).pc = s.pc := rfl
@[simp] theorem setCur_stack (w : Word) : (s.setCur w).stack = s.stack := rfl
@[simp] theorem setCur_entry (w : Word) (k' : Fin 16) : (s.setCur w).entry k' = s.entry k' := rfl
@[simp] theorem setCur_sp (w : Word) : (s.setCur w).sp = s.sp := rfl
@[simp] theorem setCur_DT (w : Word) : (s.setCur w).DT = s.DT := rfl
@[simp] theorem setCur_ST (w : Word) : (s.setCur w).ST = s.ST := rfl
@[simp] theorem setCur_fb (w : Word) : (s.setCur w).fb = s.fb := rfl
@[simp] theorem setCur_pixel (w : Word) (c : Col) (r : Row) : (s.setCur w).pixel c r = s.pixel c r := rfl
@[simp] theorem setCur_keys (w : Word) : (s.setCur w).keys = s.keys := rfl
@[simp] theorem setCur_key (w : Word) (k' : Key) : (s.setCur w).key k' = s.key k' := rfl
@[simp] theorem setCur_redraw (w : Word) : (s.setCur w).redraw = s.redraw := rfl
@[simp] theorem setCur_cur (w : Word) : (s.setCur w).cur = w := rfl
@[simp] theorem setCur_status (w : Word) : (s.setCur w).status = s.status := rfl
@[simp] theorem setCur_fault (w : Word) : (s.setCur w).fault = s.fault := rfl
@[simp] theorem setCur_rngCalls (w : Word) : (s.setCur w).rngCalls = s.rngCalls := rfl

/-! ### setStatus -/

@[simp] theorem setStatus_mem (v : Status) : (s.setStatus v).mem = s.mem := rfl
@[simp] theorem setStatus_readByte (v : Status) (a : Nat) : (s.setStatus v).readByte a = s.readByte a := rfl
@[simp] theorem setStatus_x (v : Status) : (s.setStatus v).x = s.x := rfl
@[simp] theorem setStatus_reg (v : Status) (k' : Reg) : (s.setStatus v).reg k' = s.reg k' := rfl
@[simp] theorem setStatus_I (v : Status) : (s.setStatus v).I = s.I := rfl
@[simp] theorem setStatus_pc (v : Status) : (s.setStatus v).pc = s.pc := rfl
@[simp] theorem setStatus_stack (v : Status) : (s.setStatus v).stack = s.stack := rfl
@[simp] theorem setStatus_entry (v : Status) (k' : Fin 16) : (s.setStatus v).entry k' = s.entry k' := rfl
@[simp] theorem setStatus_sp (v : Status) : (s.setStatus v).sp = s.sp := rfl
@[simp] theorem setStatus_DT (v : Status) : (s.setStatus v).DT = s.DT := rfl
@[simp] theorem setStatus_ST (v : Status) : (s.setStatus v).ST = s.ST := rfl
@[simp] theorem setStatus_fb (v : Status) : (s.setStatus v).fb = s.fb := rfl
@[simp] theorem setStatus_pixel (v : Status) (c : Col) (r : Row) : (s.setStatus v).pixel c r = s.pixel c r := rfl
@[simp] theorem setStatus_keys (v : Status) : (s.setStatus v).keys = s.keys := rfl
@[simp] theorem setStatus_key (v : Status) (k' : Key) : (s.setStatus v).key k' = s.key k' := rfl
@[simp] theorem setStatus_redraw (v : Status) : (s.setStatus v).redraw = s.redraw := rfl
@[simp] theorem setStatus_cur (v : Status) : (s.setStatus v).cur = s.cur := rfl
@[simp] theorem setStatus_status (v : Status) : (s.setStatus v).status = v := rfl
@[simp] theorem setStatus_fault (v : Status) : (s.setStatus v).fault = s.fault := rfl
@[simp] theorem setStatus_rngCalls (v : Status) : (s.setStatus v).rngCalls = s.rngCalls := rfl

/-! ### countRng -/

@[simp] theorem countRng_mem : s.countRng.mem = s.mem := rfl
@[simp] theorem countRng_readByte (a : Nat) : s.countRng.readByte a = s.readByte a := rfl
@[simp] theorem countRng_x : s.countRng.x = s.x := rfl
@[simp] theorem countRng_reg (k' : Reg) : s.countRng.reg k' = s.reg k' := rfl
@[simp] theorem countRng_I : s.countRng.I = s.I := rfl
@[simp] theorem countRng_pc : s.countRng.pc = s.pc := rfl
@[simp] theorem countRng_stack : s.countRng.stack = s.stack := rfl
@[simp] theorem countRng_entry (k' : Fin 16) : s.countRng.entry k' = s.entry k' := rfl
@[simp] theorem countRng_sp : s.countRng.sp = s.sp := rfl
@[simp] theorem countRng_DT : s.countRng.DT = s.DT := rfl
@[simp] theorem countRng_ST : s.countRng.ST = s.ST := rfl
@[simp] theorem countRng_fb : s.countRng.fb = s.fb := rfl
@[simp] theorem countRng_pixel (c : Col) (r : Row) : s.countRng.pixel c r = s.pixel c r := rfl
@[simp] theorem countRng_keys : s.countRng.keys = s.keys := rfl
@[simp] theorem countRng_key (k' : Key) : s.countRng.key k' = s.key k' := rfl
@[simp] theorem countRng_redraw : s.countRng.redraw = s.redraw := rfl
@[simp] theorem countRng_cur : s.countRng.cur = s.cur := rfl
@[simp] theorem countRng_status : s.countRng.status = s.status := rfl
@[simp] theorem countRng_fault : s.countRng.fault = s.fault := rfl
@[simp] theorem countRng_rngCalls : s.countRng.rngCalls = s.rngCalls + 1 := rfl

/-! ### enterFault -/

@[simp] theorem enterFault_mem (k : Fault) (w : Option Word) : (s.enterFault k w).mem = s.mem := rfl
@[simp] theorem enterFault_readByte (k : Fault) (w : Option Word) (a : Nat) : (s.enterFault k w).readByte a = s.readByte a := rfl
@[simp] theorem enterFault_x (k : Fault) (w : Option Word) : (s.enterFault k w).x = s.x := rfl
@[simp] theorem enterFault_reg (k : Fault) (w : Option Word) (k' : Reg) : (s.enterFault k w).reg k' = s.reg k' := rfl
@[simp] theorem enterFault_I (k : Fault) (w : Option Word) : (s.enterFault k w).I = s.I := rfl
@[simp] theorem enterFault_pc (k : Fault) (w : Option Word) : (s.enterFault k w).pc = s.pc := rfl
@[simp] theorem enterFault_stack (k : Fault) (w : Option Word) : (s.enterFault k w).stack = s.stack := rfl
@[simp] theorem enterFault_entry (k : Fault) (w : Option Word) (k' : Fin 16) : (s.enterFault k w).entry k' = s.entry k' := rfl
@[simp] theorem enterFault_sp (k : Fault) (w : Option Word) : (s.enterFault k w).sp = s.sp := rfl
@[simp] theorem enterFault_DT (k : Fault) (w : Option Word) : (s.enterFault k w).DT = s.DT := rfl
@[simp] theorem enterFault_ST (k : Fault) (w : Option Word) : (s.enterFault k w).ST = s.ST := rfl
@[simp] theorem enterFault_fb (k : Fault) (w : Option Word) : (s.enterFault k w).fb = s.fb := rfl
@[simp] theorem enterFault_pixel (k : Fault) (w : Option Word) (c : Col) (r : Row) : (s.enterFault k w).pixel c r = s.pixel c r := rfl
@[simp] theorem enterFault_keys (k : Fault) (w : Option Word) : (s.enterFault k w).keys = s.keys := rfl
@[simp] theorem enterFault_key (k : Fault) (w : Option Word) (k' : Key) : (s.enterFault k w).key k' = s.key k' := rfl
@[simp] theorem enterFault_redraw (k : Fault) (w : Option Word) : (s.enterFault k w).redraw = s.redraw := rfl
@[simp] theorem enterFault_cur (k : Fault) (w : Option Word) : (s.enterFault k w).cur = s.cur := rfl
@[simp] theorem enterFault_status (k : Fault) (w : Option Word) : (s.enterFault k w).status = .faulted := rfl
@[simp] theorem enterFault_fault (k : Fault) (w : Option Word) : (s.enterFault k w).fault = some { kind := k, pc := s.pc, word := w } := rfl
@[simp] theorem enterFault_rngCalls (k : Fault) (w : Option Word) : (s.enterFault k w).rngCalls = s.rngCalls := rfl

/-! ### raise -/

@[simp] theorem raise_mem (k : Fault) : (s.raise k).mem = s.mem := rfl
@[simp] theorem raise_readByte (k : Fault) (a : Nat) : (s.raise k).readByte a = s.readByte a := rfl
@[simp] theorem raise_x (k : Fault) : (s.raise k).x = s.x := rfl
@[simp] theorem raise_reg (k : Fault) (k' : Reg) : (s.raise k).reg k' = s.reg k' := rfl
@[simp] theorem raise_I (k : Fault) : (s.raise k).I = s.I := rfl
@[simp] theorem raise_pc (k : Fault) : (s.raise k).pc = s.pc := rfl
@[simp] theorem raise_stack (k : Fault) : (s.raise k).stack = s.stack := rfl
@[simp] theorem raise_entry (k : Fault) (k' : Fin 16) : (s.raise k).entry k' = s.entry k' := rfl
@[simp] theorem raise_sp (k : Fault) : (s.raise k).sp = s.sp := rfl
@[simp] theorem raise_DT (k : Fault) : (s.raise k).DT = s.DT := rfl
@[simp] theorem raise_ST (k : Fault) : (s.raise k).ST = s.ST := rfl
@[simp] theorem raise_fb (k : Fault) : (s.raise k).fb = s.fb := rfl
@[simp] theorem raise_pixel (k : Fault) (c : Col) (r : Row) : (s.raise k).pixel c r = s.pixel c r := rfl
@[simp] theorem raise_keys (k : Fault) : (s.raise k).keys = s.keys := rfl
@[simp] theorem raise_key (k : Fault) (k' : Key) : (s.raise k).key k' = s.key k' := rfl
@[simp] theorem raise_redraw (k : Fault) : (s.raise k).redraw = s.redraw := rfl
@[simp] theorem raise_cur (k : Fault) : (s.raise k).cur = s.cur := rfl
@[simp] theorem raise_status (k : Fault) : (s.raise k).status = .faulted := rfl
@[simp] theorem raise_fault (k : Fault) : (s.raise k).fault = some { kind := k, pc := s.pc, word := some s.cur } := rfl
@[simp] theorem raise_rngCalls (k : Fault) : (s.raise k).rngCalls = s.rngCalls := rfl

/-! ### Reads after writes of the indexed items -/

@[simp] theorem setReg_reg_same (j : Reg) (v : Byte) : (s.setReg j v).reg j = v := by simp [reg, setReg]

theorem setReg_reg_other (j k : Reg) (v : Byte) (h : k ≠ j) : (s.setReg j v).reg k = s.reg k := by
  have : j.val ≠ k.val := fun e => h (Fin.ext e.symm)
  simp [reg, setReg, Vector.getElem_set_ne, this]

/-- A register after a register write (10_state.md R32: sixteen independent registers). -/
theorem setReg_reg (j k : Reg) (v : Byte) : (s.setReg j v).reg k = if k = j then v else s.reg k := by
  by_cases h : k = j
  · simp [h]
  · simp [h, setReg_reg_other]

theorem setFlag_reg (k : Reg) (f : Byte) : (s.setFlag f).reg k = if k = VF then f else s.reg k := setReg_reg s VF k f

@[simp] theorem setFlag_reg_VF (f : Byte) : (s.setFlag f).reg VF = f := setReg_reg_same s VF f

@[simp] theorem setKey_key_same (j : Key) (b : Bool) : (s.setKey j b).key j = b := by simp [key, setKey]

theorem setKey_key_other (j k : Key) (b : Bool) (h : k ≠ j) : (s.setKey j b).key k = s.key k := by
  have : j.val ≠ k.val := fun e => h (Fin.ext e.symm)
  simp [key, setKey, Vector.getElem_set_ne, this]

@[simp] theorem setPixel_pixel_same (c : Col) (r : Row) (b : Bool) : (s.setPixel c r b).pixel c r = b := by
  simp [pixel, setPixel]

theorem setPixel_pixel_other (c c' : Col) (r r' : Row) (b : Bool) (h : ¬ (c' = c ∧ r' = r)) :
    (s.setPixel c r b).pixel c' r' = s.pixel c' r' := by
  by_cases hr : r' = r
  · subst hr
    have hc : c.val ≠ c'.val := fun e => h ⟨Fin.ext e.symm, rfl⟩
    simp [pixel, setPixel, Vector.getElem_set_ne, hc]
  · have hr' : r.val ≠ r'.val := fun e => hr (Fin.ext e.symm)
    simp [pixel, setPixel, Vector.getElem_set_ne, hr']

theorem setPixel_pixel (c c' : Col) (r r' : Row) (b : Bool) :
    (s.setPixel c r b).pixel c' r' = if c' = c ∧ r' = r then b else s.pixel c' r' := by
  by_cases h : c' = c ∧ r' = r
  · obtain ⟨rfl, rfl⟩ := h
    simp
  · simp [h, setPixel_pixel_other]

@[simp] theorem clearPixels_pixel (c : Col) (r : Row) : s.clearPixels.pixel c r = false := by
  simp [pixel, Display.clear]

/-! ### Whole items from their indexed reads -/

theorem keys_ext (s t : State) (h : ∀ k, t.key k = s.key k) : t.keys = s.keys := Vector.ext fun i hi => h ⟨i, hi⟩

theorem x_ext (s t : State) (h : ∀ k, t.reg k = s.reg k) : t.x = s.x := Vector.ext fun i hi => h ⟨i, hi⟩

theorem stack_ext (s t : State) (h : ∀ k, t.entry k = s.entry k) : t.stack = s.stack := Vector.ext fun i hi => h ⟨i, hi⟩

theorem fb_ext (s t : State) (h : ∀ c r, t.pixel c r = s.pixel c r) : t.fb = s.fb :=
  Vector.ext fun i hi => Vector.ext fun j hj => h ⟨j, hj⟩ ⟨i, hi⟩

end Sys2Proof.Machine.State
end

