-- ==== Sys2Proof/Laws/Frame.lean ====
section
/-! SUPPORT. How frames compose, and the frame of each update of the state. -/

namespace Sys2Proof

open Machine

theorem Item.same_refl (it : Item) (s : State) : it.same s s := by cases it <;> rfl

theorem Item.same_trans (it : Item) {s t u : State} (h : it.same s t) (h' : it.same t u) : it.same s u := by
  cases it <;> exact Eq.trans h' h

namespace OnlyChanges

variable {W : Item → Prop} {s t u : State}

theorem refl (W : Item → Prop) (s : State) : OnlyChanges W s s := fun it _ => it.same_refl s

theorem trans (h : OnlyChanges W s t) (h' : OnlyChanges W t u) : OnlyChanges W s u :=
  fun it hw => it.same_trans (h it hw) (h' it hw)

theorem mono {W' : Item → Prop} (h : OnlyChanges W s t) (hw : ∀ it, W it → W' it) : OnlyChanges W' s t :=
  fun it hn => h it (fun hi => hn (hw it hi))

theorem setReg (j : Reg) (v : Byte) (h : W (.reg j)) : OnlyChanges W s (s.setReg j v) := by
  intro it hn
  cases it with
  | reg k => exact State.setReg_reg_other s j k v (fun e => hn (e ▸ h))
  | _ => rfl

theorem setFlag (f : Byte) (h : W (.reg VF)) : OnlyChanges W s (s.setFlag f) := setReg VF f h

theorem writeByte (a : Nat) (b : Byte) (h : W (.memByte a)) : OnlyChanges W s (s.writeByte a b) := by
  intro it hn
  cases it with
  | memByte a' => exact State.writeByte_readByte_other s a a' b (fun e => hn (e ▸ h))
  | _ => rfl

theorem setI (v : Word) (h : W .I) : OnlyChanges W s (s.setI v) := by
  intro it hn; cases it <;> first | rfl | exact absurd h hn

theorem setPc (v : Word) (h : W .pc) : OnlyChanges W s (s.setPc v) := by
  intro it hn; cases it <;> first | rfl | exact absurd h hn

theorem advance (h : W .pc) : OnlyChanges W s s.advance := setPc _ h

theorem skipIf (b : Bool) (h : W .pc) : OnlyChanges W s (s.skipIf b) := setPc _ h

theorem setDT (v : Byte) (h : W .DT) : OnlyChanges W s (s.setDT v) := by
  intro it hn; cases it <;> first | rfl | exact absurd h hn

theorem setST (v : Byte) (h : W .ST) : OnlyChanges W s (s.setST v) := by
  intro it hn; cases it <;> first | rfl | exact absurd h hn

theorem setPixel (c : Col) (r : Row) (b : Bool) (h : W (.pixel c r)) : OnlyChanges W s (s.setPixel c r b) := by
  intro it hn
  cases it with
  | pixel c' r' => exact State.setPixel_pixel_other s c c' r r' b (fun e => hn (e.1 ▸ e.2 ▸ h))
  | _ => rfl

theorem clearPixels (h : ∀ c r, W (.pixel c r)) : OnlyChanges W s s.clearPixels := by
  intro it hn
  cases it with
  | pixel c r => exact absurd (h c r) hn
  | _ => rfl

theorem setKey (k : Key) (b : Bool) (h : W (.key k)) : OnlyChanges W s (s.setKey k b) := by
  intro it hn
  cases it with
  | key k' => exact State.setKey_key_other s k k' b (fun e => hn (e ▸ h))
  | _ => rfl

theorem setRedraw (b : Bool) (h : W .redraw) : OnlyChanges W s (s.setRedraw b) := by
  intro it hn; cases it <;> first | rfl | exact absurd h hn

theorem setCur (w : Word) (h : W .cur) : OnlyChanges W s (s.setCur w) := by
  intro it hn; cases it <;> first | rfl | exact absurd h hn

theorem setStatus (v : Status) (h : W .status) : OnlyChanges W s (s.setStatus v) := by
  intro it hn; cases it <;> first | rfl | exact absurd h hn

theorem countRng (h : W .rngCalls) : OnlyChanges W s s.countRng := by
  intro it hn; cases it <;> first | rfl | exact absurd h hn

theorem enterFault (k : Fault) (w : Option Word) (hs : W .status) (hf : W .fault) :
    OnlyChanges W s (s.enterFault k w) := by
  intro it hn; cases it <;> first | rfl | exact absurd hs hn | exact absurd hf hn

theorem raise (k : Fault) (hs : W .status) (hf : W .fault) : OnlyChanges W s (s.raise k) := enterFault k _ hs hf

end OnlyChanges

/-- Fault entry takes the fault (60_exceptions.md R602, R604). -/
theorem enterFault_takes (s : State) (k : Fault) (w : Option Word) : TakesFault k w s (s.enterFault k w) :=
  ⟨rfl, rfl, OnlyChanges.enterFault k w (.inl rfl) (.inr rfl)⟩

theorem raise_takes (s : State) (k : Fault) : TakesFault k (some s.cur) s (s.raise k) := enterFault_takes s k _

end Sys2Proof
end

