-- ==== Sys2Proof/Laws/Ops.lean ====
section
/-! SUPPORT. One lemma for each shared operation: everything it can do. -/

namespace Sys2Proof.Machine

open State

/-! ## The stack controller (40_control_flow.md R202) -/

/-- `push` succeeds exactly when fewer than 16 entries are in use; then it fills the next one. -/
theorem push_some_iff (s t : State) (v : Word) :
    s.push v = some t ↔ s.sp.val < 16 ∧ t.sp.val = s.sp.val + 1 ∧
      (∀ k : Fin 16, t.entry k = if k.val = s.sp.val then v else s.entry k) ∧
      t = { s with stack := t.stack, sp := t.sp } := by
  constructor
  · intro h
    unfold push at h
    split at h
    · next hs =>
      cases h
      refine ⟨hs, rfl, fun k => ?_, rfl⟩
      by_cases hk : k.val = s.sp.val
      · simp [entry, hk]
      · simp [entry, hk, Vector.getElem_set_ne, Ne.symm hk]
    · cases h
  · rintro ⟨hs, hsp, he, ht⟩
    rw [push, dif_pos hs]
    have hst : t.stack = s.stack.set s.sp.val v := by
      ext i hi
      have := he ⟨i, hi⟩
      simp only [entry] at this
      rw [this]
      by_cases hk : i = s.sp.val
      · subst hk; simp
      · simp [hk, Vector.getElem_set_ne, Ne.symm hk]
    have hsp' : t.sp = ⟨s.sp.val + 1, by omega⟩ := Fin.ext hsp
    rw [ht, hst, hsp']

theorem push_none_iff (s : State) (v : Word) : s.push v = none ↔ s.sp.val = 16 := by
  have := s.sp.isLt
  unfold push
  split <;> simp <;> omega

/-- `pop` succeeds exactly when an entry is in use; it gives the last one and keeps its value. -/
theorem pop_of_succ (s : State) (k : Fin 16) (h : s.sp.val = k.val + 1) :
    s.pop = some (s.entry k, { s with sp := ⟨k.val, by omega⟩ }) := by
  have h0 : ¬ s.sp.val = 0 := by omega
  have hk : s.sp.val - 1 = k.val := by omega
  simp [pop, h0, hk, entry]

theorem pop_none_iff (s : State) : s.pop = none ↔ s.sp.val = 0 := by
  unfold pop
  split <;> simp_all

/-! ## Bound check and fetch -/

theorem withinMemory_of_lt (last : Nat) (s t : State) (h : last < Config.memSize) : withinMemory last s t = .next t := by
  simp [withinMemory, h]

theorem withinMemory_of_ge (last : Nat) (s t : State) (h : Config.memSize ≤ last) :
    withinMemory last s t = .next (s.raise .outOfBounds) := by
  simp [withinMemory, Nat.not_lt.2 h]

/-- The bound check answers the effect or the fault, never anything else. -/
theorem withinMemory_cases (last : Nat) (s t : State) :
    (last < Config.memSize ∧ withinMemory last s t = .next t) ∨
      (Config.memSize ≤ last ∧ withinMemory last s t = .next (s.raise .outOfBounds)) := by
  by_cases h : last < Config.memSize
  · exact .inl ⟨h, withinMemory_of_lt _ s t h⟩
  · exact .inr ⟨Nat.not_lt.1 h, withinMemory_of_ge _ s t (Nat.not_lt.1 h)⟩

theorem fetchWord_of_lt (s : State) (h : s.pc.toNat + 1 < 4096) :
    s.fetchWord = some (wordOfBytes (s.readByte s.pc.toNat) (s.readByte (s.pc.toNat + 1))) := if_pos h

theorem fetchWord_none_iff (s : State) : s.fetchWord = none ↔ s.pc.toNat + 1 ≥ 4096 := by
  unfold fetchWord
  split
  · simp_all [Config.memSize]; omega
  · simp_all [Config.memSize]

theorem fetchWord_lt (s : State) (w : Word) (h : s.fetchWord = some w) : s.pc.toNat + 1 < 4096 := by
  unfold fetchWord at h
  split at h
  · assumption
  · cases h

/-! ## Operands -/

theorem zextNNN_toNat (a : Addr12) : (zextNNN a).toNat = a.toNat := by
  have := a.isLt
  simp only [zextNNN, BitVec.toNat_setWidth]; omega

theorem zextByte_toNat (v : Byte) : (zextByte v).toNat = v.toNat := by
  have := v.isLt
  simp only [zextByte, BitVec.toNat_setWidth]; omega

theorem keyOf_of_val (v : Byte) (k : Key) (h : v.toNat = k.val) : keyOf v = some k := by
  have hk : v.toNat < 16 := h ▸ k.isLt
  simp [keyOf, hk]
  exact Fin.ext h

theorem keyOf_none_iff (v : Byte) : keyOf v = none ↔ v.toNat > 15 := by
  unfold keyOf
  split <;> simp <;> omega

theorem keyByte_toNat (k : Key) : (keyByte k).toNat = k.val := by
  have := k.isLt
  simp only [keyByte, BitVec.toNat_ofNat]; omega

theorem mem_regsUpTo (x k : Reg) : k ∈ regsUpTo x ↔ k ≤ x := by simp [regsUpTo]

theorem regsUpTo_nodup (x : Reg) : (regsUpTo x).Nodup := (List.nodup_finRange 16).filter _

/-- The selected key is the lowest pressed one (44_timers_keys.md R457). -/
theorem selectKey_some_iff (s : State) (k : Key) :
    selectKey s = some k ↔ s.key k = true ∧ ∀ j : Key, j < k → s.key j = false := by
  have hs : ∀ a b : Fin 16, a = b ∨ a < b ∨ b < a := fun a b => by
    rcases lt_trichotomy a b with h | h | h
    · exact .inr (.inl h)
    · exact .inl h
    · exact .inr (.inr h)
  constructor
  · intro h
    rw [selectKey, List.find?_eq_some_iff_append] at h
    obtain ⟨hk, as, bs, hab, hpre⟩ := h
    refine ⟨hk, fun j hj => ?_⟩
    have hsorted : (List.finRange 16).Pairwise (· < ·) := List.pairwise_lt_finRange 16
    rw [hab, List.pairwise_append] at hsorted
    have hmem : j ∈ as ++ k :: bs := hab ▸ List.mem_finRange j
    rcases List.mem_append.1 hmem with hj' | hj'
    · simpa using hpre j hj'
    · rcases List.mem_cons.1 hj' with rfl | hj'
      · exact absurd hj (lt_irrefl _)
      · exact absurd ((List.pairwise_cons.1 hsorted.2.1).1 j hj') (lt_asymm hj)
  · rintro ⟨hk, hlow⟩
    cases h : selectKey s with
    | none =>
      rw [selectKey, List.find?_eq_none] at h
      exact absurd hk (by simpa using h k (List.mem_finRange k))
    | some j =>
      have hj : s.key j = true := by
        rw [selectKey] at h
        exact List.find?_some h
      rcases hs j k with rfl | hjk | hkj
      · rfl
      · rw [hlow j hjk] at hj; cases hj
      · rw [selectKey, List.find?_eq_some_iff_append] at h
        obtain ⟨-, as, bs, hab, hpre⟩ := h
        have hsorted : (List.finRange 16).Pairwise (· < ·) := List.pairwise_lt_finRange 16
        rw [hab, List.pairwise_append] at hsorted
        have hmem : k ∈ as ++ j :: bs := hab ▸ List.mem_finRange k
        rcases List.mem_append.1 hmem with hk' | hk'
        · have := hpre k hk'
          simp [hk] at this
        · rcases List.mem_cons.1 hk' with rfl | hk'
          · exact absurd hkj (lt_irrefl _)
          · exact absurd ((List.pairwise_cons.1 hsorted.2.1).1 k hk') (lt_asymm hkj)

theorem selectKey_none_iff (s : State) : selectKey s = none ↔ ∀ k : Key, s.key k = false := by
  simp [selectKey, List.find?_eq_none]

/-! ## The register blocks (43_index_memory.md R405, R406) -/

/-- The loop of `reg-dump` writes memory and nothing else. -/
theorem dumpRegs_eq (ks : List Reg) (s : State) : dumpRegs s ks = { s with mem := (dumpRegs s ks).mem } := by
  induction ks generalizing s with
  | nil => rfl
  | cons k ks ih => exact ih (s.writeByte (effAddr s k.val) (s.reg k))

theorem dumpRegs_cons (k : Reg) (ks : List Reg) (s : State) :
    dumpRegs s (k :: ks) = dumpRegs (s.writeByte (effAddr s k.val) (s.reg k)) ks := rfl

theorem dumpRegs_wf (ks : List Reg) (s : State) (hm : Memory.wf s.mem)
    (ha : ∀ k ∈ ks, effAddr s k.val < Config.memSize) : Memory.wf (dumpRegs s ks).mem := by
  induction ks generalizing s with
  | nil => exact hm
  | cons k ks ih =>
    rw [dumpRegs_cons]
    exact ih _ (writeByte_wf s _ _ hm (ha k (by simp))) (fun j hj => ha j (by simp [hj]))

/-- What the loop of `reg-dump` leaves in memory. -/
theorem dumpRegs_readByte_other (ks : List Reg) (s : State) (a : Nat) (h : ∀ k ∈ ks, a ≠ effAddr s k.val) :
    (dumpRegs s ks).readByte a = s.readByte a := by
  induction ks generalizing s with
  | nil => rfl
  | cons k ks ih =>
    rw [dumpRegs_cons, ih (s.writeByte (effAddr s k.val) (s.reg k)) (fun j hj => h j (by simp [hj])),
      writeByte_readByte_other _ _ _ _ (h k (by simp))]

theorem dumpRegs_readByte (ks : List Reg) (s : State) (k : Reg) (hm : Memory.wf s.mem)
    (ha : ∀ k ∈ ks, effAddr s k.val < Config.memSize) (hk : k ∈ ks) :
    (dumpRegs s ks).readByte (effAddr s k.val) = s.reg k := by
  induction ks generalizing s with
  | nil => simp at hk
  | cons j ks ih =>
    have hw := writeByte_wf s (effAddr s j.val) (s.reg j) hm (ha j (by simp))
    rw [dumpRegs_cons]
    by_cases hks : k ∈ ks
    · exact ih (s.writeByte (effAddr s j.val) (s.reg j)) hw (fun i hi => ha i (by simp [hi])) hks
    · have hkj : k = j := (List.mem_cons.1 hk).resolve_right hks
      subst hkj
      rw [dumpRegs_readByte_other _ _ _ (fun i hi e => ?_), writeByte_readByte_same s _ _ hm]
      have hik : i.val = k.val := Nat.add_left_cancel (n := s.I.toNat) e.symm
      exact hks (Fin.ext hik ▸ hi)

/-- The loop of `reg-load` writes registers and nothing else. -/
theorem loadRegs_eq (ks : List Reg) (s : State) : loadRegs s ks = { s with x := (loadRegs s ks).x } := by
  induction ks generalizing s with
  | nil => rfl
  | cons k ks ih => exact ih (s.setReg k (s.readByte (effAddr s k.val)))

/-- The registers the loop of `reg-load` leaves: the block from memory, the others as they were. -/
theorem loadRegs_reg (ks : List Reg) (s : State) (k : Reg) :
    (loadRegs s ks).reg k = if k ∈ ks then s.readByte (effAddr s k.val) else s.reg k := by
  induction ks generalizing s with
  | nil => simp [loadRegs]
  | cons j ks ih =>
    have h := ih (s.setReg j (s.readByte (effAddr s j.val)))
    show (loadRegs (s.setReg j (s.readByte (effAddr s j.val))) ks).reg k = _
    rw [h]
    by_cases hks : k ∈ ks
    · simp [hks, effAddr]
    · by_cases hkj : k = j
      · subst hkj; simp [hks]
      · simp [hks, hkj, setReg_reg_other]

theorem dumpRegs_only (W : Item → Prop) (ks : List Reg) (s : State) (h : ∀ k ∈ ks, W (.memByte (effAddr s k.val))) :
    OnlyChanges W s (dumpRegs s ks) := by
  induction ks generalizing s with
  | nil => exact OnlyChanges.refl W s
  | cons k ks ih => exact (OnlyChanges.writeByte _ _ (h k (by simp))).trans (ih _ (fun j hj => h j (by simp [hj])))

theorem loadRegs_only (W : Item → Prop) (ks : List Reg) (s : State) (h : ∀ k ∈ ks, W (.reg k)) :
    OnlyChanges W s (loadRegs s ks) := by
  induction ks generalizing s with
  | nil => exact OnlyChanges.refl W s
  | cons k ks ih => exact (OnlyChanges.setReg _ _ (h k (by simp))).trans (ih _ (fun j hj => h j (by simp [hj])))

theorem storeDigits_only (W : Item → Prop) (s : State) (v : Byte) (h : ∀ k, k < 3 → W (.memByte (effAddr s k))) :
    OnlyChanges W s (storeDigits s v) :=
  ((OnlyChanges.writeByte (effAddr s 0) (hundreds v) (h 0 (by omega))).trans
    (OnlyChanges.writeByte (effAddr s 1) (tens v) (h 1 (by omega)))).trans
    (OnlyChanges.writeByte (effAddr s 2) (units v) (h 2 (by omega)))

theorem bumpI_toNat (s : State) (x : Reg) : (bumpI s x).I.toNat = (s.I.toNat + x.val + 1) % 65536 := by
  have := x.isLt
  simp only [bumpI, setI_I, BitVec.toNat_add, BitVec.toNat_ofNat]
  omega

/-! ## Flags (42_alu.md R300) -/

theorem carry_toNat (a b : Byte) : (carry a b).toNat = if a.toNat + b.toNat > 255 then 1 else 0 := by
  unfold carry flagByte
  by_cases h : a.toNat + b.toNat > 255 <;> simp [h]

theorem noBorrow_toNat (a b : Byte) : (noBorrow a b).toNat = if a.toNat ≥ b.toNat then 1 else 0 := by
  unfold noBorrow flagByte
  by_cases h : a.toNat ≥ b.toNat <;> simp [h]

theorem lowBit_toNat (a : Byte) : (lowBit a).toNat = a.toNat % 2 := by
  simp [lowBit, BitVec.toNat_and, Nat.and_one_is_mod]

theorem highBit_toNat (a : Byte) : (highBit a).toNat = a.toNat / 128 := by
  simp [highBit, BitVec.toNat_ushiftRight, Nat.shiftRight_eq_div_pow]

/-! ## The ALU's write orders (42_alu.md R301) -/

theorem writeResult_reg (s : State) (x k : Reg) (v : Byte) :
    (writeResult s x v).reg k = if k = x then v else s.reg k := setReg_reg s x k v

theorem writeThenFlag_reg (s : State) (x k : Reg) (v f : Byte) :
    (writeThenFlag s x v f).reg k = if k = VF then f else if k = x then v else s.reg k := by
  simp [writeThenFlag, setFlag_reg, setReg_reg]

/-- With X = 0xF the shift acts on the flag. -/
theorem flagThenShift_reg (s : State) (x k : Reg) (f : Byte) (op : Byte → Byte) :
    (flagThenShift s x f op).reg k =
      if k = x then op (if x = VF then f else s.reg x) else if k = VF then f else s.reg k := by
  simp [flagThenShift, setReg_reg, setFlag_reg]

end Sys2Proof.Machine
end

