-- ==== Sys2Proof/Laws/Display.lean ====
section
/-! SUPPORT. The sprite-draw unit (45_display.md R502 to R504): a draw is the exclusive or of a list of distinct target
pixels, so its pixels, its collision flag and its frame each have one law. -/

namespace Sys2Proof.Machine

open State

/-- The targets of one sprite row, left to right. -/
def rowHits (p : Config.EdgePolicy) (ox y : Nat) (row : Byte) : List (Col × Row) :=
  (List.range 8).filterMap (fun j => if spriteBit row j then target p (ox + j) y else none)

/-- The targets of a sprite, in the order they are drawn. -/
def spriteHits (p : Config.EdgePolicy) (s : State) (ox oy n : Nat) : List (Col × Row) :=
  (List.range n).flatMap (fun i => rowHits p ox (oy + i) (s.readByte (effAddr s i)))

/-- The exclusive or of a list of pixels. -/
def xorAll (s : State) (hits : List (Col × Row)) : State := hits.foldl (fun t q => xorPixel t q.1 q.2) s

theorem xorAll_append (s : State) (as bs : List (Col × Row)) : xorAll s (as ++ bs) = xorAll (xorAll s as) bs :=
  List.foldl_append

theorem drawRow_eq (p : Config.EdgePolicy) (ox y : Nat) (row : Byte) (s : State) :
    drawRow p ox y row s = xorAll s (rowHits p ox y row) := by
  simp only [drawRow, xorAll, rowHits]
  generalize List.range 8 = js
  induction js generalizing s with
  | nil => rfl
  | cons j js ih =>
    simp only [List.foldl_cons, ih, List.filterMap_cons, drawBit]
    cases hb : spriteBit row j
    · simp
    · cases ht : target p (ox + j) y <;> simp

/-- One flip: what it changes. -/
theorem xorPixel_pixel (s : State) (c c' : Col) (r r' : Row) :
    (xorPixel s c r).pixel c' r' = if c' = c ∧ r' = r then !s.pixel c r else s.pixel c' r' := by
  unfold xorPixel
  split <;> simp_all [setPixel_pixel]

theorem xorPixel_VF (s : State) (c : Col) (r : Row) :
    (xorPixel s c r).reg VF = if s.pixel c r then 1 else s.reg VF := by
  unfold xorPixel
  split <;> simp_all

theorem xorPixel_only (s : State) (c : Col) (r : Row) :
    OnlyChanges (fun it => it = .reg VF ∨ it = .pixel c r) s (xorPixel s c r) := by
  unfold xorPixel
  split
  · exact (OnlyChanges.setFlag 1 (.inl rfl)).trans (OnlyChanges.setPixel c r false (.inr rfl))
  · exact OnlyChanges.setPixel c r true (.inr rfl)

/-- The items of the state a draw does not touch, in one equation. -/
theorem xorAll_eq (hits : List (Col × Row)) (s : State) :
    xorAll s hits = { s with x := (xorAll s hits).x, fb := (xorAll s hits).fb } := by
  induction hits generalizing s with
  | nil => rfl
  | cons q hits ih =>
    have h : xorPixel s q.1 q.2 = { s with x := (xorPixel s q.1 q.2).x, fb := (xorPixel s q.1 q.2).fb } := by
      unfold xorPixel; split <;> rfl
    have e : xorAll s (q :: hits) = xorAll (xorPixel s q.1 q.2) hits := rfl
    rw [e, ih, h]

theorem xorAll_only (hits : List (Col × Row)) (s : State) :
    OnlyChanges (fun it => it = .reg VF ∨ ∃ c r, it = .pixel c r) s (xorAll s hits) := by
  induction hits generalizing s with
  | nil => exact OnlyChanges.refl _ s
  | cons q hits ih =>
    refine OnlyChanges.trans ((xorPixel_only s q.1 q.2).mono ?_) (ih _)
    rintro it (h | h)
    · exact .inl h
    · exact .inr ⟨_, _, h⟩

/-- Distinct targets: exactly the listed pixels are flipped. -/
theorem xorAll_pixel (hits : List (Col × Row)) (s : State) (c : Col) (r : Row) (hn : hits.Nodup) :
    (xorAll s hits).pixel c r = if (c, r) ∈ hits then !s.pixel c r else s.pixel c r := by
  induction hits generalizing s with
  | nil => simp [xorAll]
  | cons q hits ih =>
    obtain ⟨hq, hn⟩ := List.nodup_cons.1 hn
    have e : xorAll s (q :: hits) = xorAll (xorPixel s q.1 q.2) hits := rfl
    rw [e, ih _ hn, xorPixel_pixel]
    by_cases h : (c, r) = q
    · subst h; simp [hq]
    · have h' : ¬ (c = q.1 ∧ r = q.2) := fun e => h (Prod.ext e.1 e.2)
      simp [h, h']

/-- Distinct targets: VF is 1 when a listed pixel was lit, and is left alone otherwise. -/
theorem xorAll_VF (hits : List (Col × Row)) (s : State) (hn : hits.Nodup) :
    (xorAll s hits).reg VF = if ∃ q ∈ hits, s.pixel q.1 q.2 = true then 1 else s.reg VF := by
  induction hits generalizing s with
  | nil => simp [xorAll]
  | cons q hits ih =>
    obtain ⟨hq, hn⟩ := List.nodup_cons.1 hn
    have e : xorAll s (q :: hits) = xorAll (xorPixel s q.1 q.2) hits := rfl
    have hpix : (∃ q' ∈ hits, (xorPixel s q.1 q.2).pixel q'.1 q'.2 = true) ↔ ∃ q' ∈ hits, s.pixel q'.1 q'.2 = true := by
      refine exists_congr fun q' => and_congr_right fun hm => ?_
      have hne : ¬ (q'.1 = q.1 ∧ q'.2 = q.2) := fun e => hq (Prod.ext e.1 e.2 ▸ hm)
      rw [xorPixel_pixel, if_neg hne]
    rw [e, ih _ hn, xorPixel_VF]
    simp only [hpix, List.mem_cons, exists_eq_or_imp]
    cases s.pixel q.1 q.2 <;> simp

/-- Two sprite bits of one draw with one target are one bit (R503, corner cases). -/
theorem target_inj (p : Config.EdgePolicy) (ox oy j j' i i' : Nat) (q : Col × Row) (hj : j < 8) (hj' : j' < 8)
    (hi : i < 32) (hi' : i' < 32) (h : target p (ox + j) (oy + i) = some q)
    (h' : target p (ox + j') (oy + i') = some q) : j = j' ∧ i = i' := by
  cases p with
  | wrap =>
    simp only [target] at h h'
    have e := h.trans h'.symm
    simp only [Option.some.injEq, Prod.mk.injEq, Fin.ext_iff, Fin.val_ofNat] at e
    omega
  | clip =>
    simp only [target] at h h'
    split at h
    · split at h'
      · have e := h.trans h'.symm
        simp only [Option.some.injEq, Prod.mk.injEq, Fin.ext_iff] at e
        omega
      · cases h'
    · cases h

theorem mem_rowHits (p : Config.EdgePolicy) (ox y : Nat) (row : Byte) (q : Col × Row) :
    q ∈ rowHits p ox y row ↔ ∃ j, j < 8 ∧ spriteBit row j = true ∧ target p (ox + j) y = some q := by
  simp only [rowHits, List.mem_filterMap, List.mem_range]
  refine exists_congr fun j => and_congr_right fun _ => ?_
  cases spriteBit row j <;> simp

theorem mem_spriteHits (p : Config.EdgePolicy) (s : State) (ox oy n : Nat) (c : Col) (r : Row) :
    (c, r) ∈ spriteHits p s ox oy n ↔ SpriteCovers p s ox oy n c r := by
  simp only [spriteHits, List.mem_flatMap, List.mem_range, mem_rowHits, SpriteCovers]
  constructor
  · rintro ⟨i, hi, j, hj, hb, ht⟩; exact ⟨i, j, hi, hj, hb, ht⟩
  · rintro ⟨i, j, hi, hj, hb, ht⟩; exact ⟨i, hi, j, hj, hb, ht⟩

/-- What a sprite covers depends on memory and `I` alone. -/
theorem spriteCovers_congr (p : Config.EdgePolicy) (s t : State) (ox oy n : Nat) (c : Col) (r : Row)
    (hm : t.mem = s.mem) (hI : t.I = s.I) : SpriteCovers p t ox oy n c r ↔ SpriteCovers p s ox oy n c r := by
  simp [SpriteCovers, readByte, effAddr, hm, hI]

/-- At most 32 rows: no pixel is targeted twice. -/
theorem spriteHits_nodup (p : Config.EdgePolicy) (s : State) (ox oy n : Nat) (hn : n ≤ 32) :
    (spriteHits p s ox oy n).Nodup := by
  refine List.nodup_flatMap.2 ⟨fun i hi => ?_, ?_⟩
  · have hi : i < n := List.mem_range.1 hi
    refine List.pairwise_filterMap.2 (List.pairwise_lt_range.imp_of_mem ?_)
    intro j j' hj hj' hlt q h q' h' e
    subst e
    rw [List.mem_range] at hj hj'
    split at h
    · split at h'
      · exact absurd (target_inj p ox oy j j' i i q hj hj' (by omega) (by omega) h h').1 (by omega)
      · cases h'
    · cases h
  · refine List.pairwise_lt_range.imp_of_mem fun {i i'} hi hi' hlt q hq hq' => ?_
    rw [List.mem_range] at hi hi'
    obtain ⟨j, hj, -, ht⟩ := (mem_rowHits ..).1 hq
    obtain ⟨j', hj', -, ht'⟩ := (mem_rowHits ..).1 hq'
    exact absurd (target_inj p ox oy j j' i i' q hj hj' (by omega) (by omega) ht ht').2 (by omega)

/-- Drawing a sprite is the exclusive or of its targets: the rows are read from memory the drawing does not change. -/
theorem drawSprite_eq (p : Config.EdgePolicy) (ox oy n : Nat) (s : State) :
    drawSprite p ox oy n s = xorAll s (spriteHits p s ox oy n) := by
  have key : ∀ (is : List Nat) (t : State), t.mem = s.mem → t.I = s.I →
      is.foldl (fun t i => drawRow p ox (oy + i) (t.readByte (effAddr t i)) t) t =
        xorAll t (is.flatMap (fun i => rowHits p ox (oy + i) (s.readByte (effAddr s i)))) := by
    intro is
    induction is with
    | nil => intro t _ _; rfl
    | cons i is ih =>
      intro t hm hI
      have hb : t.readByte (effAddr t i) = s.readByte (effAddr s i) := by simp [readByte, effAddr, hm, hI]
      have hx := xorAll_eq (rowHits p ox (oy + i) (s.readByte (effAddr s i))) t
      rw [List.foldl_cons, hb, drawRow_eq, List.flatMap_cons, xorAll_append]
      exact ih _ (by rw [hx]; exact hm) (by rw [hx]; exact hI)
  exact key _ s rfl rfl

/-- A completed draw changes pixels, VF, `redraw` and `pc` and nothing else. -/
theorem drawEffect_eq (p : Config.EdgePolicy) (x y : Reg) (n : Nat) (s : State) :
    drawEffect p x y n s =
      { s with x := (drawEffect p x y n s).x, fb := (drawEffect p x y n s).fb, redraw := true, pc := s.pc + 2 } := by
  unfold drawEffect
  rw [drawSprite_eq, xorAll_eq]
  rfl

theorem drawEffect_only (W : Item → Prop) (p : Config.EdgePolicy) (x y : Reg) (n : Nat) (s : State) (hf : W (.reg VF))
    (hp : ∀ c r, W (.pixel c r)) (hr : W .redraw) (hc : W .pc) : OnlyChanges W s (drawEffect p x y n s) := by
  unfold drawEffect
  rw [drawSprite_eq]
  refine ((OnlyChanges.setFlag 0 hf).trans ((xorAll_only _ _).mono ?_)).trans
    ((OnlyChanges.setRedraw _ hr).trans (OnlyChanges.advance hc))
  rintro it (e | ⟨c, r, e⟩)
  · exact e ▸ hf
  · exact e ▸ hp c r

/-- Under `Clip` a target is the unreduced column and row, or none (45_display.md R502). -/
theorem target_clip (c r : Nat) (q : Col × Row) : target .clip c r = some q ↔ c = q.1.val ∧ r = q.2.val := by
  obtain ⟨⟨c', hc⟩, r', hr⟩ := q
  simp only [target]
  split <;> simp_all
  omega

/-- A draw of at most 32 rows changes exactly the targets of its set sprite bits (45_display.md R503, R504). -/
theorem drawEffect_pixel (p : Config.EdgePolicy) (x y : Reg) (n : Nat) (s : State) (hn : n ≤ 32) (c : Col) (r : Row) :
    (drawEffect p x y n s).pixel c r ≠ s.pixel c r ↔ SpriteCovers p s (s.reg x).toNat (s.reg y).toNat n c r := by
  have hp := xorAll_pixel (spriteHits p (s.setFlag 0) (s.reg x).toNat (s.reg y).toNat n) (s.setFlag 0) c r
    (spriteHits_nodup _ _ _ _ _ hn)
  unfold drawEffect
  rw [drawSprite_eq, ← spriteCovers_congr p s (s.setFlag 0) _ _ _ _ _ rfl rfl, ← mem_spriteHits]
  simp only [advance_pixel, setRedraw_pixel, hp, setFlag_pixel]
  by_cases h : (c, r) ∈ spriteHits p (s.setFlag 0) (s.reg x).toNat (s.reg y).toNat n <;> simp

/-- A sprite within memory, or without rows, is drawn (R503). -/
theorem execDrawUnder_readable (p : Config.EdgePolicy) (x y : Reg) (n : Nat) (s : State)
    (h : n = 0 ∨ effAddr s (n - 1) < Config.memSize) : execDrawUnder p x y n s = .next (drawEffect p x y n s) := by
  unfold execDrawUnder
  split
  · rfl
  · next hn => exact withinMemory_of_lt _ _ _ (h.resolve_left hn)

end Sys2Proof.Machine
end

