-- ==== Sys2Proof/Laws/HostOps.lean ====
section
/-! SUPPORT. The host operations: one lemma each for what they compute. -/

namespace Sys2Proof.Machine

/-- A countdown with floor 0 (60_exceptions.md R621). -/
theorem countDown_toNat (t : Byte) : (countDown t).toNat = t.toNat - 1 := by
  have := t.isLt
  unfold countDown
  split
  · simp only [BitVec.toNat_sub, BitVec.reduceToNat]; omega
  · simp; omega

/-- `load_rom` copies or rejects (70_reset_and_hazards.md R706, R707). -/
theorem loadRom_cases (bytes : List Byte) (s : State) :
    (bytes.length ≤ Config.maxRom ∧
      loadRom bytes s = ({ s with mem := Memory.writeList s.mem Config.programStart bytes }, none)) ∨
    (bytes.length > Config.maxRom ∧ loadRom bytes s = (s, some .romTooLarge)) := by
  by_cases h : bytes.length > Config.maxRom
  · exact .inr ⟨h, by simp [loadRom, h]⟩
  · exact .inl ⟨Nat.not_lt.1 h, by simp [loadRom, h]⟩

/-- A ROM that fits keeps memory in its canonical form. -/
theorem loadRom_wf (bytes : List Byte) (s : State) (hm : Memory.wf s.mem) : Memory.wf (loadRom bytes s).1.mem := by
  rcases loadRom_cases bytes s with ⟨hl, h⟩ | ⟨-, h⟩ <;> rw [h]
  · exact Memory.writeList_wf bytes s.mem _ hm (by simp only [Config.maxRom, Config.programStart, Config.memSize] at *; omega)
  · exact hm

end Sys2Proof.Machine
end

