-- ==== Sys2Proof/Laws/PerInstr.lean ====
section
/-! SUPPORT. Per instruction: its encoding meets its own row of the opcode map (30_encoding.md R104, R120). -/

namespace Sys2Proof.Laws.EncodesOwnRow

/-- The word of a well-formed `i` matches the row of the opcode map that bears `i`'s mnemonic. -/
def Statement (i : Instr) : Prop :=
  i.wf = true → ∃ r ∈ opcodeTable, r.mnemonic = i.mnemonic ∧ r.covers (encode i) = true

/-- The `nnn` format: the family alone is fixed. -/
theorem nnn (r : OpcodeRow) (f : Nat) (a : Addr12) (hf : f < 16) (hm : r.mask.toNat = 0xF000)
    (hp : r.pattern.toNat = f * 4096) : r.covers (wordNNN f a) = true := by
  have := a.isLt
  rw [covers_iff r _ 0 (by omega) (by omega), toNat_wordNNN f a hf, hp]; omega

/-- The `xnn` format: the family alone is fixed. -/
theorem xnn (r : OpcodeRow) (f : Nat) (x : Reg) (k : Byte) (hf : f < 16) (hm : r.mask.toNat = 0xF000)
    (hp : r.pattern.toNat = f * 4096) : r.covers (wordXNN f x k) = true := by
  have := x.isLt
  have := k.isLt
  rw [covers_iff r _ 0 (by omega) (by omega), toNat_wordXNN f x k hf, hp]; omega

/-- The `xyn` format: the family alone is fixed. -/
theorem xyn (r : OpcodeRow) (f : Nat) (x y : Reg) (n : Nat) (hf : f < 16) (hn : n < 16) (hm : r.mask.toNat = 0xF000)
    (hp : r.pattern.toNat = f * 4096) : r.covers (wordXYN f x y n) = true := by
  have := x.isLt
  have := y.isLt
  rw [covers_iff r _ 0 (by omega) (by omega), toNat_wordXYN f x y n hf hn, hp]; omega

/-- The `xy` format: the family and the low nibble are fixed. -/
theorem xy (r : OpcodeRow) (f : Nat) (x y : Reg) (n : Nat) (hf : f < 16) (hn : n < 16) (hm : r.mask.toNat = 0xF00F)
    (hp : r.pattern.toNat = f * 4096 + n) : r.covers (wordXYN f x y n) = true := by
  have := x.isLt
  have := y.isLt
  rw [covers_iff r _ 4 (by omega) (by omega), toNat_wordXYN f x y n hf hn, hp]; omega

/-- The `x` format: the family and the low byte are fixed. -/
theorem xs (r : OpcodeRow) (f : Nat) (x : Reg) (k : Byte) (hf : f < 16) (hm : r.mask.toNat = 0xF0FF)
    (hp : r.pattern.toNat = f * 4096 + k.toNat) : r.covers (wordXNN f x k) = true := by
  have := x.isLt
  have := k.isLt
  rw [covers_iff r _ 8 (by omega) (by omega), toNat_wordXNN f x k hf, hp]; omega

theorem clearScreen : Statement .clearScreen :=
  fun _ => ⟨⟨"clear-screen", 0x00E0, 0xFFFF⟩, by decide, rfl, by decide⟩

theorem ret : Statement .ret :=
  fun _ => ⟨⟨"return", 0x00EE, 0xFFFF⟩, by decide, rfl, by decide⟩

theorem jump (a : Addr12) : Statement (.jump a) :=
  fun _ => ⟨⟨"jump", 0x1000, 0xF000⟩, by decide, rfl, nnn _ 0x1 a (by decide) rfl rfl⟩

theorem call (a : Addr12) : Statement (.call a) :=
  fun _ => ⟨⟨"call", 0x2000, 0xF000⟩, by decide, rfl, nnn _ 0x2 a (by decide) rfl rfl⟩

theorem skipEqImm (x : Reg) (k : Byte) : Statement (.skipEqImm x k) :=
  fun _ => ⟨⟨"skip-eq-imm", 0x3000, 0xF000⟩, by decide, rfl, xnn _ 0x3 x k (by decide) rfl rfl⟩

theorem skipNeImm (x : Reg) (k : Byte) : Statement (.skipNeImm x k) :=
  fun _ => ⟨⟨"skip-ne-imm", 0x4000, 0xF000⟩, by decide, rfl, xnn _ 0x4 x k (by decide) rfl rfl⟩

theorem skipEqReg (x y : Reg) : Statement (.skipEqReg x y) :=
  fun _ => ⟨⟨"skip-eq-reg", 0x5000, 0xF00F⟩, by decide, rfl, xy _ 0x5 x y 0x0 (by decide) (by decide) rfl rfl⟩

theorem loadImm (x : Reg) (k : Byte) : Statement (.loadImm x k) :=
  fun _ => ⟨⟨"load-imm", 0x6000, 0xF000⟩, by decide, rfl, xnn _ 0x6 x k (by decide) rfl rfl⟩

theorem addImm (x : Reg) (k : Byte) : Statement (.addImm x k) :=
  fun _ => ⟨⟨"add-imm", 0x7000, 0xF000⟩, by decide, rfl, xnn _ 0x7 x k (by decide) rfl rfl⟩

theorem assign (x y : Reg) : Statement (.assign x y) :=
  fun _ => ⟨⟨"assign", 0x8000, 0xF00F⟩, by decide, rfl, xy _ 0x8 x y 0x0 (by decide) (by decide) rfl rfl⟩

theorem or (x y : Reg) : Statement (.or x y) :=
  fun _ => ⟨⟨"or", 0x8001, 0xF00F⟩, by decide, rfl, xy _ 0x8 x y 0x1 (by decide) (by decide) rfl rfl⟩

theorem and (x y : Reg) : Statement (.and x y) :=
  fun _ => ⟨⟨"and", 0x8002, 0xF00F⟩, by decide, rfl, xy _ 0x8 x y 0x2 (by decide) (by decide) rfl rfl⟩

theorem xor (x y : Reg) : Statement (.xor x y) :=
  fun _ => ⟨⟨"xor", 0x8003, 0xF00F⟩, by decide, rfl, xy _ 0x8 x y 0x3 (by decide) (by decide) rfl rfl⟩

theorem add (x y : Reg) : Statement (.add x y) :=
  fun _ => ⟨⟨"add", 0x8004, 0xF00F⟩, by decide, rfl, xy _ 0x8 x y 0x4 (by decide) (by decide) rfl rfl⟩

theorem sub (x y : Reg) : Statement (.sub x y) :=
  fun _ => ⟨⟨"sub", 0x8005, 0xF00F⟩, by decide, rfl, xy _ 0x8 x y 0x5 (by decide) (by decide) rfl rfl⟩

theorem shr (x y : Reg) : Statement (.shr x y) :=
  fun _ => ⟨⟨"shr", 0x8006, 0xF00F⟩, by decide, rfl, xy _ 0x8 x y 0x6 (by decide) (by decide) rfl rfl⟩

theorem subn (x y : Reg) : Statement (.subn x y) :=
  fun _ => ⟨⟨"subn", 0x8007, 0xF00F⟩, by decide, rfl, xy _ 0x8 x y 0x7 (by decide) (by decide) rfl rfl⟩

theorem shl (x y : Reg) : Statement (.shl x y) :=
  fun _ => ⟨⟨"shl", 0x800E, 0xF00F⟩, by decide, rfl, xy _ 0x8 x y 0xE (by decide) (by decide) rfl rfl⟩

theorem skipNeReg (x y : Reg) : Statement (.skipNeReg x y) :=
  fun _ => ⟨⟨"skip-ne-reg", 0x9000, 0xF00F⟩, by decide, rfl, xy _ 0x9 x y 0x0 (by decide) (by decide) rfl rfl⟩

theorem loadAddr (a : Addr12) : Statement (.loadAddr a) :=
  fun _ => ⟨⟨"load-addr", 0xA000, 0xF000⟩, by decide, rfl, nnn _ 0xA a (by decide) rfl rfl⟩

theorem jumpOffset (a : Addr12) : Statement (.jumpOffset a) :=
  fun _ => ⟨⟨"jump-offset", 0xB000, 0xF000⟩, by decide, rfl, nnn _ 0xB a (by decide) rfl rfl⟩

theorem rand (x : Reg) (k : Byte) : Statement (.rand x k) :=
  fun _ => ⟨⟨"rand", 0xC000, 0xF000⟩, by decide, rfl, xnn _ 0xC x k (by decide) rfl rfl⟩

theorem draw (x y : Reg) (n : Nat) : Statement (.draw x y n) :=
  fun h => ⟨⟨"draw", 0xD000, 0xF000⟩, by decide, rfl, xyn _ 0xD x y n (by decide) (of_decide_eq_true h) rfl rfl⟩

theorem getDelay (x : Reg) : Statement (.getDelay x) :=
  fun _ => ⟨⟨"get-delay", 0xF007, 0xF0FF⟩, by decide, rfl, xs _ 0xF x 0x07 (by decide) rfl rfl⟩

theorem setDelay (x : Reg) : Statement (.setDelay x) :=
  fun _ => ⟨⟨"set-delay", 0xF015, 0xF0FF⟩, by decide, rfl, xs _ 0xF x 0x15 (by decide) rfl rfl⟩

theorem setSound (x : Reg) : Statement (.setSound x) :=
  fun _ => ⟨⟨"set-sound", 0xF018, 0xF0FF⟩, by decide, rfl, xs _ 0xF x 0x18 (by decide) rfl rfl⟩

theorem addAddr (x : Reg) : Statement (.addAddr x) :=
  fun _ => ⟨⟨"add-addr", 0xF01E, 0xF0FF⟩, by decide, rfl, xs _ 0xF x 0x1E (by decide) rfl rfl⟩

theorem fontAddr (x : Reg) : Statement (.fontAddr x) :=
  fun _ => ⟨⟨"font-addr", 0xF029, 0xF0FF⟩, by decide, rfl, xs _ 0xF x 0x29 (by decide) rfl rfl⟩

theorem bcdStore (x : Reg) : Statement (.bcdStore x) :=
  fun _ => ⟨⟨"bcd-store", 0xF033, 0xF0FF⟩, by decide, rfl, xs _ 0xF x 0x33 (by decide) rfl rfl⟩

theorem regDump (x : Reg) : Statement (.regDump x) :=
  fun _ => ⟨⟨"reg-dump", 0xF055, 0xF0FF⟩, by decide, rfl, xs _ 0xF x 0x55 (by decide) rfl rfl⟩

theorem regLoad (x : Reg) : Statement (.regLoad x) :=
  fun _ => ⟨⟨"reg-load", 0xF065, 0xF0FF⟩, by decide, rfl, xs _ 0xF x 0x65 (by decide) rfl rfl⟩

theorem skipKey (x : Reg) : Statement (.skipKey x) :=
  fun _ => ⟨⟨"skip-key", 0xE09E, 0xF0FF⟩, by decide, rfl, xs _ 0xE x 0x9E (by decide) rfl rfl⟩

theorem skipNkey (x : Reg) : Statement (.skipNkey x) :=
  fun _ => ⟨⟨"skip-nkey", 0xE0A1, 0xF0FF⟩, by decide, rfl, xs _ 0xE x 0xA1 (by decide) rfl rfl⟩

theorem waitKey (x : Reg) : Statement (.waitKey x) :=
  fun _ => ⟨⟨"wait-key", 0xF00A, 0xF0FF⟩, by decide, rfl, xs _ 0xF x 0x0A (by decide) rfl rfl⟩

end Sys2Proof.Laws.EncodesOwnRow
end

