-- ==== Sys2Proof/Laws/Step.lean ====
section
/-! SUPPORT. The step function said once: every way `step` can come to its next state (30_encoding.md R130). -/

namespace Sys2Proof.Machine

open State

/-- `wait_poll` writes one register, `pc` and `status`, or nothing (44_timers_keys.md R456). -/
theorem waitPoll_cases (r : Reg) (s : State) :
    (∃ k, selectKey s = some k ∧ waitPoll r s = (storeKey s r k).setStatus .running) ∨
      (selectKey s = none ∧ waitPoll r s = s) := by
  unfold waitPoll
  cases h : selectKey s with
  | some k => exact .inl ⟨k, rfl, rfl⟩
  | none => exact .inr ⟨rfl, rfl⟩

theorem waitPoll_only (r : Reg) (s : State) : OnlyChanges (· ∈ [.reg r, .pc, .status]) s (waitPoll r s) := by
  rcases waitPoll_cases r s with ⟨k, -, h⟩ | ⟨-, h⟩ <;> rw [h]
  · exact ((OnlyChanges.setReg _ _ (by simp)).trans (OnlyChanges.advance (by simp))).trans
      (OnlyChanges.setStatus _ (by simp))
  · exact OnlyChanges.refl _ s

/-- The inversion lemma of the step: nothing in Faulted, a poll while waiting, a fetch fault, a decode fault, or the meaning
of the decoded instruction. -/
theorem step_cases (s t : State) (h : step s = .next t) :
    (s.status = .faulted ∧ t = s) ∨
    (∃ r, s.status = .awaitingKey r ∧ t = waitPoll r s) ∨
    (s.status = .running ∧ s.fetchWord = none ∧ t = s.enterFault .outOfBounds none) ∨
    (s.status = .running ∧ ∃ w, s.fetchWord = some w ∧ decodeWord w = .error (.illegal w) ∧
      t = (s.setCur w).raise .decodeFault) ∨
    (s.status = .running ∧ ∃ w i, s.fetchWord = some w ∧ decodeWord w = .ok i ∧ exec i (s.setCur w) = .next t) := by
  unfold step stepWith at h
  split at h
  · next hs => cases h; exact .inl ⟨hs, rfl⟩
  · next r hs => cases h; exact .inr (.inl ⟨r, hs, rfl⟩)
  · next hs =>
    split at h
    · next w hw =>
      unfold runWord at h
      split at h
      · next i hi => exact .inr (.inr (.inr (.inr ⟨hs, w, i, hw, hi, h⟩)))
      · next e he => cases h; exact .inr (.inr (.inr (.inl ⟨hs, w, hw, (decodeWord_error w e he) ▸ he, rfl⟩)))
    · next hw => cases h; exact .inr (.inr (.inl ⟨hs, hw, rfl⟩))

/-- The machine of `step` is the one whose EDGE_POLICY is the default (00_scope.md R10). -/
theorem stepUnder_edgePolicy : stepUnder edgePolicy = step := by
  funext s
  have h : execUnder edgePolicy = exec := by
    funext i t
    cases i <;> rfl
  rw [stepUnder, h, step]

/-- Resetting with the default font is the reset state (70_reset_and_hazards.md R700). -/
theorem resetWith_font : resetWith font = State.reset := by decide

end Sys2Proof.Machine
end

