-- ==== Sys2Proof/Tests/Slice0.lean ====
section
/-! SUPPORT. The model's own tests. Expected results come from the spec: words written out bit by bit from
30_encoding.md R104 and R120, the vectors of 95_test_vectors.md (named in each docstring), and the examples of the
instruction rules. The last part gives each statement's hypotheses a state that meets them. -/

namespace Sys2Proof.Tests

open Machine

/-! ## Well-formedness -/

/-- R105: N is in 0..15; 16 is refused. -/
theorem test_wf_draw_refuses_16 : (Instr.draw 0 1 16).wf = false := by decide

theorem test_wf_draw_admits_15 : (Instr.draw 0 1 15).wf = true := by decide

/-! ## Decoding, every constructor, from the bit patterns of R120 -/

theorem test_decode_clearScreen : decodeTableWord 16 0b0000000011100000 = some .clearScreen := by decide
theorem test_decode_ret : decodeTableWord 16 0b0000000011101110 = some .ret := by decide
theorem test_decode_jump : decodeTableWord 16 0b0001001000000100 = some (.jump 0x204) := by decide
theorem test_decode_call : decodeTableWord 16 0b0010001000001010 = some (.call 0x20A) := by decide
theorem test_decode_skipEqImm : decodeTableWord 16 0b0011000000000101 = some (.skipEqImm 0 5) := by decide
theorem test_decode_skipNeImm : decodeTableWord 16 0b0100001100010001 = some (.skipNeImm 3 0x11) := by decide
theorem test_decode_skipEqReg : decodeTableWord 16 0b0101000100100000 = some (.skipEqReg 1 2) := by decide
theorem test_decode_loadImm : decodeTableWord 16 0b0110101000000101 = some (.loadImm 0xA 5) := by decide
theorem test_decode_addImm : decodeTableWord 16 0b0111101000000011 = some (.addImm 0xA 3) := by decide
theorem test_decode_assign : decodeTableWord 16 0b1000001000010000 = some (.assign 2 1) := by decide
theorem test_decode_or : decodeTableWord 16 0b1000000000010001 = some (.or 0 1) := by decide
theorem test_decode_and : decodeTableWord 16 0b1000000000010010 = some (.and 0 1) := by decide
theorem test_decode_xor : decodeTableWord 16 0b1000000000010011 = some (.xor 0 1) := by decide
theorem test_decode_add : decodeTableWord 16 0b1000000000010100 = some (.add 0 1) := by decide
theorem test_decode_sub : decodeTableWord 16 0b1000001100010101 = some (.sub 3 1) := by decide
theorem test_decode_shr : decodeTableWord 16 0b1000001100010110 = some (.shr 3 1) := by decide
theorem test_decode_subn : decodeTableWord 16 0b1000010000110111 = some (.subn 4 3) := by decide
theorem test_decode_shl : decodeTableWord 16 0b1000001100001110 = some (.shl 3 0) := by decide
theorem test_decode_skipNeReg : decodeTableWord 16 0b1001000100100000 = some (.skipNeReg 1 2) := by decide
theorem test_decode_loadAddr : decodeTableWord 16 0b1010001100000000 = some (.loadAddr 0x300) := by decide
theorem test_decode_jumpOffset : decodeTableWord 16 0b1011001000000000 = some (.jumpOffset 0x200) := by decide
theorem test_decode_rand : decodeTableWord 16 0b1100010100001111 = some (.rand 5 0x0F) := by decide
theorem test_decode_draw : decodeTableWord 16 0b1101000011110001 = some (.draw 0 15 1) := by decide
theorem test_decode_getDelay : decodeTableWord 16 0b1111001100000111 = some (.getDelay 3) := by decide
theorem test_decode_setDelay : decodeTableWord 16 0b1111000100010101 = some (.setDelay 1) := by decide
theorem test_decode_setSound : decodeTableWord 16 0b1111000100011000 = some (.setSound 1) := by decide
theorem test_decode_addAddr : decodeTableWord 16 0b1111001000011110 = some (.addAddr 2) := by decide
theorem test_decode_fontAddr : decodeTableWord 16 0b1111001000101001 = some (.fontAddr 2) := by decide
theorem test_decode_bcdStore : decodeTableWord 16 0b1111101000110011 = some (.bcdStore 0xA) := by decide
theorem test_decode_regDump : decodeTableWord 16 0b1111001001010101 = some (.regDump 2) := by decide
theorem test_decode_regLoad : decodeTableWord 16 0b1111001001100101 = some (.regLoad 2) := by decide
theorem test_decode_skipKey : decodeTableWord 16 0b1110010010011110 = some (.skipKey 4) := by decide
theorem test_decode_skipNkey : decodeTableWord 16 0b1110010010100001 = some (.skipNkey 4) := by decide
theorem test_decode_waitKey : decodeTableWord 16 0b1111010100001010 = some (.waitKey 5) := by decide

/-- Vectors VF-5 to VF-12: words of every illegal family. -/
theorem test_decode_illegal :
    [0x0000, 0x0123, 0x00E1, 0x5121, 0x9121, 0x8008, 0x800F, 0xE09F, 0xF000].map (decodeTableWord 16) =
      List.replicate 9 none := by decide

theorem test_decode_truncated : decodeBytes [0x60] = .error .truncated := by decide

/-! ## One step on a small state -/

/-- The reset machine with the word `w` at 0x200. -/
def at200 (w : Nat) : State := State.reset.withFetchWord 16 w

/-- The state one step comes to. -/
def after (s : State) : State :=
  match step s with
  | .next t => t
  | .fault _ => s
  | .refused _ => s

/-- A machine with `n` saved addresses `a`. -/
def saved (s : State) (n : Fin 17) (a : Word) : State := { s with sp := n, stack := Vector.replicate 16 a }

/-- VC-1 -/
theorem test_jump : (after (at200 0x1204)).pc = 0x204 := by decide

/-- VC-4 -/
theorem test_call_last_entry :
    (after (saved (at200 0x2300) 15 0)).sp = 16 ∧ (after (saved (at200 0x2300) 15 0)).entry 15 = 0x200 ∧
      (after (saved (at200 0x2300) 15 0)).pc = 0x300 := by decide

/-- VC-5 -/
theorem test_call_overflow :
    (after (saved (at200 0x2300) 16 0)).fault = some ⟨.stackOverflow, 0x200, some 0x2300⟩ ∧
      (after (saved (at200 0x2300) 16 0)).pc = 0x200 := by decide

/-- VC-6 -/
theorem test_return : (after (saved (at200 0x00EE) 1 0x204)).pc = 0x206 ∧
    (after (saved (at200 0x00EE) 1 0x204)).sp = 0 ∧ (after (saved (at200 0x00EE) 1 0x204)).entry 0 = 0x204 := by decide

/-- VC-7, P5, W8 -/
theorem test_return_underflow : (after (at200 0x00EE)).fault = some ⟨.stackUnderflow, 0x200, some 0x00EE⟩ := by decide

/-- VC-9, VC-11 -/
theorem test_jumpOffset : (after ((at200 0xB200).setReg 0 0x04)).pc = 0x206 ∧
    (after ((at200 0xBFFF).setReg 0 0xFF)).pc = 0x1100 := by decide

/-- VS-1, VS-2 -/
theorem test_skipEqImm : (after ((at200 0x3005).setReg 0 5)).pc = 0x204 ∧ (after ((at200 0x3005).setReg 0 4)).pc = 0x202 := by
  decide

/-- VS-3, VS-4 -/
theorem test_skipNeImm :
    (after ((at200 0x4311).setReg 3 0x10)).pc = 0x204 ∧ (after ((at200 0x4311).setReg 3 0x11)).pc = 0x202 := by decide

/-- VS-5 -/
theorem test_skipEqReg : (after (((at200 0x5120).setReg 1 7).setReg 2 7)).pc = 0x204 := by decide

/-- VS-7 -/
theorem test_skipNeReg : (after (((at200 0x9120).setReg 1 7).setReg 2 8)).pc = 0x204 := by decide

/-- VS-11 -/
theorem test_skipKey : (after (((at200 0xE19E).setReg 1 3).setKey 3 true)).pc = 0x204 := by decide

/-- VS-14 -/
theorem test_skipKey_no_such_key :
    (after ((at200 0xE19E).setReg 1 16)).fault = some ⟨.outOfBounds, 0x200, some 0xE19E⟩ := by decide

/-- VS-12, VS-13 -/
theorem test_skipNkey : (after (((at200 0xE1A1).setReg 1 3).setKey 3 true)).pc = 0x202 ∧
    (after ((at200 0xE1A1).setReg 1 3)).pc = 0x204 := by decide

/-- VS-15 -/
theorem test_skipNkey_no_such_key :
    (after ((at200 0xE1A1).setReg 1 0xFF)).fault = some ⟨.outOfBounds, 0x200, some 0xE1A1⟩ := by decide

/-- V6-1 -/
theorem test_loadImm : (after (at200 0x6A05)).reg 0xA = 5 ∧ (after (at200 0x6A05)).pc = 0x202 := by decide

/-- V7-2 -/
theorem test_addImm_no_carry : (after ((at200 0x7001).setReg 0 0xFF)).reg 0 = 0 ∧
    (after ((at200 0x7001).setReg 0 0xFF)).reg VF = 0 := by decide

/-- V8-1 -/
theorem test_assign : (after ((at200 0x8210).setReg 1 0x42)).reg 2 = 0x42 := by decide

/-- V8-2 -/
theorem test_or : (after ((((at200 0x8011).setReg 0 2).setReg 1 4).setReg 15 1)).reg 0 = 6 ∧
    (after ((((at200 0x8011).setReg 0 2).setReg 1 4).setReg 15 1)).reg VF = 1 := by decide

/-- V8-3 -/
theorem test_and : (after (((at200 0x8012).setReg 0 0xF0).setReg 1 0x3C)).reg 0 = 0x30 := by decide

/-- V8-3 -/
theorem test_xor : (after (((at200 0x8013).setReg 0 0x30).setReg 1 0x3C)).reg 0 = 0x0C := by decide

/-- V8-4, V8-5 -/
theorem test_add : (after (((at200 0x8014).setReg 0 0xFF).setReg 1 1)).reg VF = 1 ∧
    (after (((at200 0x8014).setReg 0 0x80).setReg 1 0x7F)).reg 0 = 0xFF ∧
    (after (((at200 0x8014).setReg 0 0x80).setReg 1 0x7F)).reg VF = 0 := by decide

/-- V8-8 -/
theorem test_add_into_VF : (after (((at200 0x8F14).setReg 15 0xFF).setReg 1 1)).reg VF = 1 := by decide

/-- V8-10, V8-11 -/
theorem test_sub : (after ((at200 0x8315).setReg 1 1)).reg 3 = 0xFF ∧ (after ((at200 0x8315).setReg 1 1)).reg VF = 0 ∧
    (after (((at200 0x8315).setReg 3 5).setReg 1 5)).reg VF = 1 := by decide

/-- V8-12 -/
theorem test_sub_into_VF : (after (((at200 0x8F15).setReg 15 5).setReg 1 7)).reg VF = 0 := by decide

/-- V8-14 -/
theorem test_subn : (after ((at200 0x8437).setReg 4 1)).reg 4 = 0xFF ∧ (after ((at200 0x8437).setReg 4 1)).reg VF = 0 := by
  decide

/-- V8-14a -/
theorem test_subn_into_VF : (after (((at200 0x8F17).setReg 15 5).setReg 1 7)).reg VF = 1 := by decide

/-- V8-15 -/
theorem test_shr : (after (((at200 0x8316).setReg 3 0x81).setReg 1 0xFF)).reg 3 = 0x40 ∧
    (after (((at200 0x8316).setReg 3 0x81).setReg 1 0xFF)).reg VF = 1 := by decide

/-- V8-15b -/
theorem test_shr_VF : (after ((at200 0x8F06).setReg 15 3)).reg VF = 0 := by decide

/-- V8-16, V8-16a -/
theorem test_shl : (after ((at200 0x830E).setReg 3 0x7F)).reg 3 = 0xFE ∧ (after ((at200 0x830E).setReg 3 0x80)).reg VF = 1 := by
  decide

/-- V8-16b, V8-16c -/
theorem test_shl_VF : (after ((at200 0x8F0E).setReg 15 0x80)).reg VF = 2 ∧
    (after ((at200 0x8F0E).setReg 15 0x7F)).reg VF = 0 := by decide

/-- VR-1, VR-2: whatever the machine, when the oracle answers 0xA7. -/
theorem test_rand_answers : (randUnder 0xA7 5 0x0F State.reset).reg 5 = 0x07 ∧
    (randUnder 0xA7 5 0xF0 State.reset).reg 5 = 0xA0 := by decide

/-- VI-1 -/
theorem test_loadAddr : (after (at200 0xA123)).I = 0x123 := by decide

/-- VI-3, VI-4 -/
theorem test_addAddr : (after (((at200 0xF11E).setI 0xFFFF).setReg 1 1)).I = 0 ∧
    (after (((at200 0xF11E).setI 0xFFF).setReg 1 1)).I = 0x1000 := by decide

/-- VI-6, VI-7 -/
theorem test_fontAddr : (after ((at200 0xF129).setReg 1 0x10)).I = 0x50 ∧ (after ((at200 0xF129).setReg 1 0xFF)).I = 0x4FB := by
  decide

/-- VI-9 -/
theorem test_bcdStore :
    [0xFFD, 0xFFE, 0xFFF].map (after (((at200 0xF133).setI 0xFFD).setReg 1 255)).readByte = [2, 5, 5] := by decide

/-- VI-11 -/
theorem test_bcdStore_past_end :
    (after (((at200 0xF133).setI 0xFFE).setReg 1 255)).fault = some ⟨.outOfBounds, 0x200, some 0xF133⟩ ∧
      (after (((at200 0xF133).setI 0xFFE).setReg 1 255)).readByte 0xFFE = 0 := by decide

/-- VI-12 -/
theorem test_regDump :
    [0x400, 0x401, 0x402, 0x403].map
      (after (((((at200 0xF255).setI 0x400).setReg 0 1).setReg 1 2).setReg 2 3)).readByte = [1, 2, 3, 0] ∧
    (after ((at200 0xF255).setI 0x400)).I = 0x403 := by decide

/-- VI-15 -/
theorem test_regDump_past_end : (after ((at200 0xFF55).setI 0xFF1)).fault = some ⟨.outOfBounds, 0x200, some 0xFF55⟩ ∧
    (after ((at200 0xFF55).setI 0xFF1)).I = 0xFF1 := by decide

/-- VI-17 -/
theorem test_regLoad : (after (((at200 0xFF65).setI 0x300).writeByte 0x30F 0x44)).reg VF = 0x44 ∧
    (after ((at200 0xFF65).setI 0x300)).I = 0x310 := by decide

/-- VI-18 -/
theorem test_regLoad_past_end : (after ((at200 0xF265).setI 0xFFE)).fault = some ⟨.outOfBounds, 0x200, some 0xF265⟩ := by
  decide

/-- VT-2 -/
theorem test_getDelay : (after ((at200 0xF307).setDT 0x3C)).reg 3 = 0x3C := by decide

/-- VT-1 -/
theorem test_setDelay : (after ((at200 0xF015).setReg 0 0x3C)).DT = 0x3C := by decide

/-- VT-3 -/
theorem test_setSound : (after ((at200 0xF118).setReg 1 5)).ST = 5 ∧ soundOn (after ((at200 0xF118).setReg 1 5)) = true := by
  decide

/-- VK-1 -/
theorem test_waitKey_lowest : (after (((at200 0xF10A).setKey 9 true).setKey 4 true)).reg 1 = 4 ∧
    (after (((at200 0xF10A).setKey 9 true).setKey 4 true)).pc = 0x202 := by decide

/-- VK-3 -/
theorem test_waitKey_waits : (after (at200 0xF50A)).status = .awaitingKey 5 ∧
    (after ((after (at200 0xF50A)).setKey 7 true)).reg 5 = 7 ∧
    (after ((after (at200 0xF50A)).setKey 7 true)).status = .running := by decide

/-- VD-11 -/
theorem test_clearScreen : (after ((at200 0x00E0).setPixel 5 5 true)).pixel 5 5 = false ∧
    (after (at200 0x00E0)).redraw = true := by decide

/-- VD-7: columns 6 to 13 of row 8, wrapped. -/
theorem test_draw_wraps :
    let s := (((at200 0xD011).setReg 0 70).setReg 1 40).setI 0x300 |>.writeByte 0x300 0xFF
    [5, 6, 13, 14].map (fun c => (after s).pixel c 8) = [false, true, true, false] := by decide

/-- VD-8: nothing drawn, clipped. -/
theorem test_draw_clips :
    let s := (((at200 0xD011).setReg 0 70).setReg 1 40).setI 0x300 |>.writeByte 0x300 0xFF
    ∃ t, stepUnder .clip s = .next t ∧ t.pixel 6 8 = false ∧ t.redraw = true := ⟨_, rfl, by decide⟩

/-- VH-5 -/
theorem test_readDisplay_index : (readDisplay (State.reset.setPixel 3 1 true))[67]? = some 1 := by decide +kernel

/-- VF-1 -/
theorem test_fetch_past_end : (after ((at200 0).setPc 0xFFF)).fault = some ⟨.outOfBounds, 0xFFF, none⟩ := by decide

/-- VF-4 -/
theorem test_fetch_odd : (after ((((at200 0).writeByte 0x201 0x60).writeByte 0x202 0x07).setPc 0x201)).reg 0 = 7 := by decide

/-! ## Every hypothesis is met -/

theorem witness_DecodeOfEncodedInstruction : (Instr.draw 1 2 15).wf = true := by decide

theorem witness_decoded_and_illegal_words :
    decodeWord 0x8F1E#16 = .ok (.shl 0xF 1) ∧ decodeWord 0x8F18#16 = .error (.illegal 0x8F18) := by decide

/-- The last fetchable address. -/
theorem witness_StepRunsDecodedInstruction :
    let s := ((State.reset.writeByte 0xFFE 0x1F).writeByte 0xFFF 0xFE).setPc 0xFFE
    s.status = .running ∧ s.pc.toNat + 1 < 4096 ∧
      decodeBytes [s.readByte s.pc.toNat, s.readByte (s.pc.toNat + 1)] = .ok (.jump 0xFFE, []) := by decide

theorem witness_FetchPastEndFaults :
    (State.reset.setPc 0xFFF).status = .running ∧ (State.reset.setPc 0xFFF).pc.toNat + 1 ≥ 4096 := by decide

theorem witness_IllegalWordFaults : (at200 0x5121).status = .running ∧ (at200 0x5121).fetchWord = some 0x5121 ∧
    decodeWord 0x5121#16 = .error (.illegal 0x5121) := by decide

theorem witness_FaultEntryIsAtomic : (at200 0x00EE).status = .running ∧
    ∃ t, step (at200 0x00EE) = .next t ∧ t.status = .faulted := ⟨by decide, _, rfl, by decide⟩

theorem witness_FaultIsSticky : (after (at200 0x00EE)).status = .faulted ∧ HostOp.loadRom [0x12, 0x00] ≠ .reset := by decide

theorem witness_StepLeavesTimersAndKeys :
    (∃ t, step ((at200 0xF015).setReg 0 3) = .next t ∧ t.DT ≠ ((at200 0xF015).setReg 0 3).DT) ∧
    (∃ t, step ((at200 0xF018).setReg 0 3) = .next t ∧ t.ST ≠ ((at200 0xF018).setReg 0 3).ST) :=
  ⟨⟨_, rfl, by decide⟩, ⟨_, rfl, by decide⟩⟩

theorem witness_StackAndDisplayWriters :
    (∃ t, step (at200 0x2300) = .next t ∧ t.sp ≠ (at200 0x2300).sp ∧ t.stack ≠ (at200 0x2300).stack) ∧
    (∃ t, step (at200 0xD001) = .next t ∧ t.fb ≠ (at200 0xD001).fb) :=
  ⟨⟨_, rfl, by decide, fun h => absurd (congrArg (fun v => v[0]) h) (by decide)⟩,
   ⟨_, rfl, fun h => absurd (congrArg (fun v => v[0][0]) h) (by decide)⟩⟩

theorem witness_ExecWritesOnlyItsItems : ∃ t, exec (.regDump 15) (State.reset.setI 0x400) = .next t := ⟨_, rfl⟩

theorem witness_WaitEnteredOnlyByWaitKey : (at200 0xF50A).status = .running ∧
    ∃ t, step (at200 0xF50A) = .next t ∧ t.status = .awaitingKey 5 := ⟨by decide, _, rfl, by decide⟩

/-- Key 15 alone, the highest; and no key. -/
theorem witness_WaitingStepPolls :
    let s := State.reset.setStatus (.awaitingKey 5)
    s.status = .awaitingKey 5 ∧ (s.setKey 15 true).key 15 = true ∧
      (∀ j : Key, j < 15 → (s.setKey 15 true).key j = false) ∧ (∀ k : Key, s.key k = false) := by decide

theorem witness_SelfJumpChangesNothing : (at200 0x1200).status = .running ∧ (at200 0x1200).fetchWord = some 0x1200 ∧
    (0x1200#16).toNat = 0x1000 + (at200 0x1200).pc.toNat := by decide

/-- The invariant has states other than reset: one entry saved, `pc` moved, a byte stored. -/
theorem witness_Inv : Inv (saved ((State.reset.writeByte 0x300 7).setPc 0x1100) 1 0xFFE) where
  memory := by decide
  record := by decide
  counter := by decide
  saved := by decide
  waiting := fun _ h => nomatch h
  named := fun _ h => nomatch h

theorem witness_StepKeepsInvariant : ∃ t, step (saved ((State.reset.writeByte 0x300 7).setPc 0x1100) 1 0xFFE) = .next t :=
  ⟨_, rfl⟩

theorem witness_LoadRomCopiesOrRejects : Memory.wf State.reset.mem ∧ (List.replicate 3584 (0x12 : Byte)).length ≤ 3584 ∧
    (List.replicate 3585 (0x12 : Byte)).length > 3584 :=
  ⟨Memory.reset_wf, by rw [List.length_replicate], by rw [List.length_replicate]; omega⟩

/-- One entry, sixteen entries, none. -/
theorem witness_ReturnPopsAndResumes : (saved State.reset 1 0x204).sp.val = (0 : Fin 16).val + 1 ∧
    (saved State.reset 16 0x204).sp.val = (15 : Fin 16).val + 1 ∧ State.reset.sp.val = 0 := by decide

/-- No entry, fifteen entries, sixteen. -/
theorem witness_CallPushesOwnAddress : State.reset.sp.val = (0 : Fin 16).val ∧
    (saved State.reset 15 0x204).sp.val = (15 : Fin 16).val ∧ (saved State.reset 16 0x204).sp.val = 16 := by decide

theorem witness_CallThenReturnResumes : (saved State.reset 15 0x204).sp.val < 16 ∧
    ∃ t, exec (.call 0x300) (saved State.reset 15 0x204) = .next t := ⟨by decide, _, rfl⟩

/-- The highest key, and the lowest value that names none. -/
theorem witness_SkipsOnKeys : ((State.reset.setReg 1 15).reg 1).toNat = (15 : Key).val ∧
    ((State.reset.setReg 1 16).reg 1).toNat > 15 := by decide

theorem witness_destination_VF_and_not : (3 : Reg) ≠ VF ∧ (15 : Reg) = VF := by decide

/-- The highest `I` that succeeds and the lowest that faults (R404). -/
theorem witness_BcdStoresDigits : Memory.wf (State.reset.setI 0xFFD).mem ∧ effAddr (State.reset.setI 0xFFD) 2 < 4096 ∧
    effAddr (State.reset.setI 0xFFE) 2 ≥ 4096 := by decide

/-- R405, R406: `I + X = 0xFFF` succeeds, one higher faults. -/
theorem witness_register_blocks : Memory.wf (State.reset.setI 0xFF0).mem ∧
    effAddr (State.reset.setI 0xFF0) (15 : Reg).val < 4096 ∧ effAddr (State.reset.setI 0xFF1) (15 : Reg).val ≥ 4096 := by decide

theorem witness_BcdRoundTrip : Memory.wf (State.reset.setI 0xFFD).mem ∧ effAddr (State.reset.setI 0xFFD) 2 < 4096 ∧
    ∃ t, exec (.bcdStore 0xA) (State.reset.setI 0xFFD) = .next t := ⟨by decide, by decide, _, rfl⟩

theorem witness_StoredBytesAreFetched : Memory.wf (State.reset.setI 0xFFE).mem ∧
    effAddr (State.reset.setI 0xFFE) (1 : Reg).val < 4096 ∧ (1 : Reg).val = (0 : Reg).val + 1 ∧ (1 : Reg) ≤ 1 ∧
    ∃ t, exec (.regDump 1) (State.reset.setI 0xFFE) = .next t := ⟨by decide, by decide, by decide, by decide, _, rfl⟩

/-- Two keys pressed, and none. -/
theorem witness_WaitKeyStoresLowestOrWaits :
    let s := (State.reset.setKey 9 true).setKey 4 true
    s.key 4 = true ∧ (∀ j : Key, j < 4 → s.key j = false) ∧ (∀ k : Key, State.reset.key k = false) := by decide

/-- No rows with `I` past the end; fifteen rows up to the last byte. -/
theorem witness_draw_completes : (0 < 16 ∧ ((0 : Nat) = 0 ∨ effAddr (State.reset.setI 0xFFFF) (0 - 1) < 4096)) ∧
    (15 < 16 ∧ ((15 : Nat) = 0 ∨ effAddr (State.reset.setI 0xFF1) (15 - 1) < 4096)) := by decide

/-- R502, the row `Clip`: a bit at column 63 is a target, a bit at column 64 is dropped and does not wrap to column 0. -/
theorem witness_DrawClippedDropsPastEdge :
    let s := ((State.reset.setReg 0 63).setI 0x300).writeByte 0x300 0xC0
    ((1 : Nat) = 0 ∨ effAddr s (1 - 1) < 4096) ∧
      ∃ t, execDrawUnder .clip 0 1 1 s = .next t ∧ t.pixel 63 0 = true ∧ t.pixel 0 0 = false :=
  ⟨by decide, _, rfl, by decide⟩

/-- Origins at and past an edge. -/
theorem witness_DrawClippedDropsPastEdge_outside : ((State.reset.setReg 0 64).reg 0).toNat ≥ 64 ∧
    ((State.reset.setReg 1 32).reg 1).toNat ≥ 32 := by decide

theorem witness_DrawPastEndFaults : 1 ≤ 2 ∧ effAddr (State.reset.setI 0xFFF) (2 - 1) ≥ 4096 := by decide

theorem witness_DrawTwiceRestoresDisplay : (1 : Nat) < 16 ∧ ((1 : Nat) = 0 ∨ effAddr State.reset (1 - 1) < 4096) ∧
    ∃ t, execDrawUnder .wrap 0 1 1 State.reset = .next t ∧ t.reg 0 = State.reset.reg 0 ∧ t.reg 1 = State.reset.reg 1 :=
  ⟨by decide, by decide, _, rfl, by decide, by decide⟩

/-- The last column and the last row a sprite of 15 rows fits in. -/
theorem witness_EdgePoliciesAgreeInside :
    ((State.reset.setReg 0 56).setReg 1 17 |>.reg 0).toNat + 8 ≤ 64 ∧
      ((State.reset.setReg 0 56).setReg 1 17 |>.reg 1).toNat + 15 ≤ 32 := by decide

end Sys2Proof.Tests
end

section
/-! PROOFS. The frame of every instruction and of the step: what each one answers and which items it may have written
(10_state.md R34 to R47, 30_encoding.md R130). -/

namespace Sys2Proof.Machine

/-- The outcome goes on to a next state, and only items of `W` have changed on the way from `s`. -/
def AnswersWithin (W : Item → Prop) (s : State) (o : Outcome) : Prop := ∃ t, o = .next t ∧ OnlyChanges W s t

/-! ## The shared operations -/

section
variable {W : Item → Prop} {s : State}

theorem answersWithin_next {t : State} (h : OnlyChanges W s t) : AnswersWithin W s (.next t) := ⟨t, rfl, h⟩

theorem answersWithin_raise (k : Fault) (hf : ∀ it, FaultItem it → W it) : AnswersWithin W s (.next (s.raise k)) :=
  answersWithin_next (OnlyChanges.raise k (hf _ (.inl rfl)) (hf _ (.inr rfl)))

/-- The bound check adds the fault items to what its effect writes. -/
theorem answersWithin_withinMemory (last : Nat) {t : State} (hf : ∀ it, FaultItem it → W it) (h : OnlyChanges W s t) :
    AnswersWithin W s (withinMemory last s t) := by
  rcases withinMemory_cases last s t with ⟨-, e⟩ | ⟨-, e⟩ <;> rw [e]
  · exact answersWithin_next h
  · exact answersWithin_raise _ hf

theorem writeResult_only (x : Reg) (v : Byte) (hx : W (.reg x)) (hc : W .pc) : OnlyChanges W s (writeResult s x v) :=
  (OnlyChanges.setReg x v hx).trans (OnlyChanges.advance hc)

theorem writeThenFlag_only (x : Reg) (v f : Byte) (hx : W (.reg x)) (hf : W (.reg VF)) (hc : W .pc) :
    OnlyChanges W s (writeThenFlag s x v f) :=
  ((OnlyChanges.setReg x v hx).trans (OnlyChanges.setFlag f hf)).trans (OnlyChanges.advance hc)

theorem flagThenShift_only (x : Reg) (f : Byte) (op : Byte → Byte) (hx : W (.reg x)) (hf : W (.reg VF)) (hc : W .pc) :
    OnlyChanges W s (flagThenShift s x f op) :=
  ((OnlyChanges.setFlag f hf).trans (OnlyChanges.setReg x _ hx)).trans (OnlyChanges.advance hc)

theorem push_only {t : State} {v : Word} (h : s.push v = some t) (hsp : W .sp)
    (he : ∀ k : Fin 16, k.val = s.sp.val → W (.entry k)) : OnlyChanges W s t := by
  obtain ⟨-, -, hent, heq⟩ := (push_some_iff s t v).1 h
  intro it hn
  cases it with
  | entry k => exact (hent k).trans (if_neg fun hk => hn (he k hk))
  | sp => exact absurd hsp hn
  | _ => rw [heq]; rfl

theorem pop_only {t : State} {a : Word} (h : s.pop = some (a, t)) (hsp : W .sp) : OnlyChanges W s t := by
  unfold State.pop at h
  split at h
  · cases h
  · cases h
    intro it hn
    cases it with
    | sp => exact absurd hsp hn
    | _ => rfl

end

/-! ## The instructions that branch -/

section
variable {W : Item → Prop} (s : State)

theorem execReturn_answersWithin (hsp : W .sp) (hc : W .pc) (hf : ∀ it, FaultItem it → W it) :
    AnswersWithin W s (execReturn s) := by
  unfold execReturn
  split
  · next h => exact answersWithin_next ((pop_only h hsp).trans (OnlyChanges.setPc _ hc))
  · exact answersWithin_raise _ hf

theorem execCall_answersWithin (nnn : Addr12) (hsp : W .sp) (he : ∀ k : Fin 16, k.val = s.sp.val → W (.entry k))
    (hc : W .pc) (hf : ∀ it, FaultItem it → W it) : AnswersWithin W s (execCall nnn s) := by
  unfold execCall
  split
  · next h => exact answersWithin_next ((push_only h hsp he).trans (OnlyChanges.setPc _ hc))
  · exact answersWithin_raise _ hf

theorem execSkipKey_answersWithin (x : Reg) (hc : W .pc) (hf : ∀ it, FaultItem it → W it) :
    AnswersWithin W s (execSkipKey x s) := by
  unfold execSkipKey
  split
  · exact answersWithin_next (OnlyChanges.skipIf _ hc)
  · exact answersWithin_raise _ hf

theorem execSkipNkey_answersWithin (x : Reg) (hc : W .pc) (hf : ∀ it, FaultItem it → W it) :
    AnswersWithin W s (execSkipNkey x s) := by
  unfold execSkipNkey
  split
  · exact answersWithin_next (OnlyChanges.skipIf _ hc)
  · exact answersWithin_raise _ hf

theorem execWaitKey_answersWithin (x : Reg) (hx : W (.reg x)) (hs : W .status) (hc : W .pc) :
    AnswersWithin W s (execWaitKey x s) := by
  unfold execWaitKey
  split
  · exact answersWithin_next (writeResult_only x _ hx hc)
  · exact answersWithin_next (OnlyChanges.setStatus _ hs)

/-- `draw` under either edge policy. -/
theorem execDrawUnder_answersWithin (p : Config.EdgePolicy) (x y : Reg) (n : Nat) (hv : W (.reg VF))
    (hp : ∀ c r, W (.pixel c r)) (hr : W .redraw) (hc : W .pc) (hf : ∀ it, FaultItem it → W it) :
    AnswersWithin W s (execDrawUnder p x y n s) := by
  have h := drawEffect_only W p x y n s hv hp hr hc
  unfold execDrawUnder
  split
  · exact answersWithin_next h
  · exact answersWithin_withinMemory _ hf h

end

/-! ## Every instruction -/

/-- Every instruction goes on to a next state and writes only the items the spec's tables give it. -/
theorem exec_answersWithin (i : Instr) (s : State) : AnswersWithin (MayWrite i s) s (exec i s) := by
  have hc : MayWrite i s .pc := .inl rfl
  cases i with
  | clearScreen =>
    exact answersWithin_next (((OnlyChanges.clearPixels fun c r => .inr (.inr ⟨c, r, rfl⟩)).trans
      (OnlyChanges.setRedraw _ (.inr (.inl rfl)))).trans (OnlyChanges.advance hc))
  | ret => exact execReturn_answersWithin s (.inr (.inl rfl)) hc (fun _ h => .inr (.inr h))
  | jump nnn => exact answersWithin_next (OnlyChanges.setPc _ hc)
  | call nnn =>
    exact execCall_answersWithin s nnn (.inr (.inl rfl)) (fun k hk => .inr (.inr (.inl ⟨k, hk, rfl⟩))) hc
      (fun _ h => .inr (.inr (.inr h)))
  | skipEqImm x nn => exact answersWithin_next (OnlyChanges.skipIf _ hc)
  | skipNeImm x nn => exact answersWithin_next (OnlyChanges.skipIf _ hc)
  | skipEqReg x y => exact answersWithin_next (OnlyChanges.skipIf _ hc)
  | loadImm x nn => exact answersWithin_next (writeResult_only x _ (.inr rfl) hc)
  | addImm x nn => exact answersWithin_next (writeResult_only x _ (.inr rfl) hc)
  | assign x y => exact answersWithin_next (writeResult_only x _ (.inr rfl) hc)
  | or x y => exact answersWithin_next (writeResult_only x _ (.inr rfl) hc)
  | and x y => exact answersWithin_next (writeResult_only x _ (.inr rfl) hc)
  | xor x y => exact answersWithin_next (writeResult_only x _ (.inr rfl) hc)
  | add x y => exact answersWithin_next (writeThenFlag_only x _ _ (.inr (.inl rfl)) (.inr (.inr rfl)) hc)
  | sub x y => exact answersWithin_next (writeThenFlag_only x _ _ (.inr (.inl rfl)) (.inr (.inr rfl)) hc)
  | shr x y => exact answersWithin_next (flagThenShift_only x _ _ (.inr (.inl rfl)) (.inr (.inr rfl)) hc)
  | subn x y => exact answersWithin_next (writeThenFlag_only x _ _ (.inr (.inl rfl)) (.inr (.inr rfl)) hc)
  | shl x y => exact answersWithin_next (flagThenShift_only x _ _ (.inr (.inl rfl)) (.inr (.inr rfl)) hc)
  | skipNeReg x y => exact answersWithin_next (OnlyChanges.skipIf _ hc)
  | loadAddr nnn => exact answersWithin_next ((OnlyChanges.setI _ (.inr rfl)).trans (OnlyChanges.advance hc))
  | jumpOffset nnn => exact answersWithin_next (OnlyChanges.setPc _ hc)
  | rand x nn =>
    exact answersWithin_next ((writeResult_only x _ (.inr (.inl rfl)) hc).trans (OnlyChanges.countRng (.inr (.inr rfl))))
  | draw x y n =>
    exact execDrawUnder_answersWithin s edgePolicy x y n (.inr (.inl rfl))
      (fun c r => .inr (.inr (.inr (.inl ⟨c, r, rfl⟩)))) (.inr (.inr (.inl rfl))) hc
      (fun _ h => .inr (.inr (.inr (.inr h))))
  | getDelay x => exact answersWithin_next (writeResult_only x _ (.inr rfl) hc)
  | setDelay x => exact answersWithin_next ((OnlyChanges.setDT _ (.inr rfl)).trans (OnlyChanges.advance hc))
  | setSound x => exact answersWithin_next ((OnlyChanges.setST _ (.inr rfl)).trans (OnlyChanges.advance hc))
  | addAddr x => exact answersWithin_next ((OnlyChanges.setI _ (.inr rfl)).trans (OnlyChanges.advance hc))
  | fontAddr x => exact answersWithin_next ((OnlyChanges.setI _ (.inr rfl)).trans (OnlyChanges.advance hc))
  | bcdStore x =>
    exact answersWithin_withinMemory _ (fun _ h => .inr (.inr h))
      ((storeDigits_only _ s _ fun k hk => .inr (.inl ⟨k, hk, rfl⟩)).trans (OnlyChanges.advance hc))
  | regDump x =>
    have hblock : ∀ k ∈ regsUpTo x, MayWrite (.regDump x) s (.memByte (effAddr s k.val)) := fun k hk =>
      .inr (.inr (.inl ⟨k.val, Nat.lt_succ_of_le ((mem_regsUpTo x k).1 hk), rfl⟩))
    exact answersWithin_withinMemory _ (fun _ h => .inr (.inr (.inr h)))
      (((dumpRegs_only _ _ s hblock).trans (OnlyChanges.setI _ (.inr (.inl rfl)))).trans (OnlyChanges.advance hc))
  | regLoad x =>
    have hblock : ∀ k ∈ regsUpTo x, MayWrite (.regLoad x) s (.reg k) := fun k hk =>
      .inr (.inr (.inl ⟨k, (mem_regsUpTo x k).1 hk, rfl⟩))
    exact answersWithin_withinMemory _ (fun _ h => .inr (.inr (.inr h)))
      (((loadRegs_only _ _ s hblock).trans (OnlyChanges.setI _ (.inr (.inl rfl)))).trans (OnlyChanges.advance hc))
  | skipKey x => exact execSkipKey_answersWithin s x hc (fun _ h => .inr h)
  | skipNkey x => exact execSkipNkey_answersWithin s x hc (fun _ h => .inr h)
  | waitKey x => exact execWaitKey_answersWithin s x (.inr (.inl rfl)) (.inr (.inr rfl)) hc

theorem exec_next_only {i : Instr} {s t : State} (h : exec i s = .next t) : OnlyChanges (MayWrite i s) s t := by
  obtain ⟨t', e, hw⟩ := exec_answersWithin i s
  rw [h] at e
  cases e
  exact hw

/-! ## The step -/

theorem runWord_exec_next (w : Word) (s : State) : ∃ t, runWord exec w s = .next t := by
  unfold runWord
  split
  · next i _ =>
    obtain ⟨t, ht, -⟩ := exec_answersWithin i (s.setCur w)
    exact ⟨t, ht⟩
  · exact ⟨_, rfl⟩

/-- Who can have changed an item in a step: a poll while waiting, the fetch or a fault entry, or the executed
instruction. -/
theorem changed_by_step {s t : State} (h : step s = .next t) {it : Item} (hne : ¬ it.same s t) :
    (∃ r, s.status = .awaitingKey r ∧ it ∈ [.reg r, .pc, .status]) ∨
    (s.status = .running ∧ it ∈ [.cur, .status, .fault]) ∨
    (s.status = .running ∧ ∃ w i, s.fetchWord = some w ∧ decodeWord w = .ok i ∧ MayWrite i s it) := by
  rcases step_cases s t h with ⟨-, rfl⟩ | ⟨r, hs, rfl⟩ | ⟨hs, -, rfl⟩ | ⟨hs, w, -, -, rfl⟩ | ⟨hs, w, i, hw, hi, he⟩
  · exact absurd (it.same_refl _) hne
  · exact .inl ⟨r, hs, not_imp_comm.1 (waitPoll_only r s it) hne⟩
  · have hfault : OnlyChanges (· ∈ [Item.cur, .status, .fault]) s (s.enterFault .outOfBounds none) :=
      OnlyChanges.enterFault _ _ (by simp) (by simp)
    exact .inr (.inl ⟨hs, not_imp_comm.1 (hfault it) hne⟩)
  · have hfault : OnlyChanges (· ∈ [Item.cur, .status, .fault]) s ((s.setCur w).raise .decodeFault) :=
      (OnlyChanges.setCur w (by simp)).trans (OnlyChanges.raise _ (by simp) (by simp))
    exact .inr (.inl ⟨hs, not_imp_comm.1 (hfault it) hne⟩)
  · by_cases hcur : it = .cur
    · exact .inr (.inl ⟨hs, by simp [hcur]⟩)
    · have hexec : OnlyChanges (fun j => j = .cur ∨ MayWrite i s j) s t :=
        (OnlyChanges.setCur w (.inl rfl)).trans ((exec_next_only he).mono fun _ hj => .inr hj)
      have hmay := (not_imp_comm.1 (hexec it) hne).resolve_left hcur
      exact .inr (.inr ⟨hs, w, i, hw, hi, hmay⟩)

/-- An item that is none of those a poll, the fetch or a fault entry writes changes only by an instruction that may write
it. -/
theorem changed_by_instruction {s t : State} (h : step s = .next t) {it : Item} (hne : ¬ it.same s t)
    (hreg : ∀ k, it ≠ .reg k) (hit : it ∉ [.pc, .cur, .status, .fault]) :
    s.status = .running ∧ ∃ w i, s.fetchWord = some w ∧ decodeWord w = .ok i ∧ MayWrite i s it := by
  rcases changed_by_step h hne with ⟨r, -, hm⟩ | ⟨-, hm⟩ | hexec
  · simp_all
  · simp_all
  · exact hexec

/-! ## Which instructions may write the keys and the timers (10_state.md R43, R46) -/

theorem not_mayWrite_key (i : Instr) (s : State) (k : Key) : ¬ MayWrite i s (.key k) := by
  cases i <;> simp [MayWrite, FaultItem, ByteAtI]

theorem mayWrite_DT_iff (i : Instr) (s : State) : MayWrite i s .DT ↔ ∃ x, i = .setDelay x := by
  cases i <;> simp [MayWrite, FaultItem, ByteAtI]

theorem mayWrite_ST_iff (i : Instr) (s : State) : MayWrite i s .ST ↔ ∃ x, i = .setSound x := by
  cases i <;> simp [MayWrite, FaultItem, ByteAtI]

end Sys2Proof.Machine
end

section
/-! PROOFS. The statements about the step of 30_encoding.md. -/

namespace Sys2Proof.Machine

/-- Settles O11: every branch of the step is a next state, the executed instruction's by its frame lemma. -/
theorem stepAlwaysAnswersNext : Obligations.StepAlwaysAnswersNext := by
  intro s
  unfold step stepWith
  split
  · exact ⟨_, rfl⟩
  · exact ⟨_, rfl⟩
  · split
    · next w _ => exact runWord_exec_next w s
    · exact ⟨_, rfl⟩

/-- Settles O12: a changed key or timer was changed by the executed instruction, and the tables of what an instruction may
write name no key, `DT` for Fx15 alone and `ST` for Fx18 alone. -/
theorem stepLeavesTimersAndKeys : Obligations.StepLeavesTimersAndKeys := by
  intro s t h
  refine ⟨State.keys_ext s t fun k => ?_, fun hDT => ?_, fun hST => ?_⟩
  · by_contra hne
    obtain ⟨-, w, i, -, -, hmay⟩ := changed_by_instruction h (it := .key k) hne (by simp) (by simp)
    exact not_mayWrite_key i s k hmay
  · obtain ⟨hs, w, i, hw, hi, hmay⟩ := changed_by_instruction h (it := .DT) hDT (by simp) (by simp)
    obtain ⟨x, rfl⟩ := (mayWrite_DT_iff i s).1 hmay
    exact ⟨hs, w, x, hw, hi⟩
  · obtain ⟨hs, w, i, hw, hi, hmay⟩ := changed_by_instruction h (it := .ST) hST (by simp) (by simp)
    obtain ⟨x, rfl⟩ := (mayWrite_ST_iff i s).1 hmay
    exact ⟨hs, w, x, hw, hi⟩

end Sys2Proof.Machine
end

section
/-! PROOFS. Decoding by the opcode map's masks: what a matched word's fields are (30_encoding.md R104, R120). -/

namespace Sys2Proof

/-- Every mask of the opcode map keeps the family, so a word that matches a pattern is of the pattern's family. -/
theorem fieldF_of_masked {w m p : Word} (k : Nat) (hk : k ≤ 12) (hm : m.toNat = 0xF000 + (2 ^ k - 1))
    (h : w &&& m = p) : fieldF w = p.toNat / 4096 := by
  have hlow : w.toNat % 2 ^ k < 4096 :=
    (Nat.mod_lt _ (Nat.two_pow_pos k)).trans_le (Nat.pow_le_pow_right (by decide) hk)
  rw [fieldF_eq, ← h, toNat_and_mask w m k hk hm]
  omega

theorem decodeWord_of_family_1 {w : Word} (h : fieldF w = 0x1) : decodeWord w = .ok (.jump (fieldNNN w)) := by
  simp [decodeWord, h]

theorem decodeWord_of_family_B {w : Word} (h : fieldF w = 0xB) : decodeWord w = .ok (.jumpOffset (fieldNNN w)) := by
  simp [decodeWord, h]

end Sys2Proof
end

section
/-! PROOFS. The statements about the jumps of 40_control_flow.md. -/

namespace Sys2Proof.Machine

theorem exec_jump (a : Addr12) (s : State) : exec (.jump a) s = .next (s.setPc (zextNNN a)) := rfl

theorem exec_jumpOffset (a : Addr12) (s : State) :
    exec (.jumpOffset a) s = .next (s.setPc (zextByte (s.reg 0) + zextNNN a + 2)) := rfl

/-- R206's sum is at most 255 + 4095 + 2, so its reduction modulo 2^16 never takes effect. -/
theorem jumpOffset_target_toNat (v : Byte) (a : Addr12) :
    (zextByte v + zextNNN a + 2).toNat = v.toNat + a.toNat + 2 := by
  have := v.isLt
  have := a.isLt
  simp only [BitVec.toNat_add, zextByte_toNat, zextNNN_toNat, BitVec.reduceToNat]
  omega

/-- Settles O28: the family alone fixes the instruction, and its meaning is one write of `pc`. -/
theorem jumpSetsPc : Obligations.JumpSetsPc := by
  refine ⟨fun w hw => decodeWord_of_family_1 (fieldF_of_masked 0 (by decide) rfl hw), fun a s => ?_⟩
  exact ⟨_, exec_jump a s, zextNNN_toNat a, OnlyChanges.setPc _ (by simp)⟩

/-- Settles O30: the family alone fixes the instruction, and its meaning is one write of `pc` with a sum that fits. -/
theorem jumpOffsetAddsTwo : Obligations.JumpOffsetAddsTwo := by
  refine ⟨fun w hw => decodeWord_of_family_B (fieldF_of_masked 0 (by decide) rfl hw), fun a s => ?_⟩
  exact ⟨_, exec_jumpOffset a s, jumpOffset_target_toNat (s.reg 0) a, OnlyChanges.setPc _ (by simp)⟩

end Sys2Proof.Machine
end

section
/-! PROOFS. Decoding of the skips: the low nibble of a masked word and the families 3, 4, 5 and 9 (30_encoding.md R104,
R120). -/

namespace Sys2Proof

/-- A mask that keeps at least the low four bits keeps N, so a word that matches a pattern has the pattern's N. -/
theorem fieldN_of_masked {w m p : Word} (k : Nat) (hk : k ≤ 12) (hk4 : 4 ≤ k) (hm : m.toNat = 0xF000 + (2 ^ k - 1))
    (h : w &&& m = p) : fieldN w = p.toNat % 16 := by
  have hlow : w.toNat % 2 ^ k % 16 = w.toNat % 16 := Nat.mod_mod_of_dvd _ (Nat.pow_dvd_pow 2 hk4)
  rw [fieldN_eq, ← h, toNat_and_mask w m k hk hm]
  omega

theorem decodeWord_of_family_3 {w : Word} (h : fieldF w = 0x3) :
    decodeWord w = .ok (.skipEqImm (fieldX w) (fieldNN w)) := by
  simp [decodeWord, h]

theorem decodeWord_of_family_4 {w : Word} (h : fieldF w = 0x4) :
    decodeWord w = .ok (.skipNeImm (fieldX w) (fieldNN w)) := by
  simp [decodeWord, h]

theorem decodeWord_of_family_5 {w : Word} (h : fieldF w = 0x5) (hN : fieldN w = 0) :
    decodeWord w = .ok (.skipEqReg (fieldX w) (fieldY w)) := by
  simp [decodeWord, h, hN]

theorem decodeWord_of_family_9 {w : Word} (h : fieldF w = 0x9) (hN : fieldN w = 0) :
    decodeWord w = .ok (.skipNeReg (fieldX w) (fieldY w)) := by
  simp [decodeWord, h, hN]

end Sys2Proof
end

section
/-! PROOFS. The statements about the skips on values of 41_skip.md. -/

namespace Sys2Proof.Machine

theorem exec_skipEqImm (x : Reg) (nn : Byte) (s : State) :
    exec (.skipEqImm x nn) s = .next (s.skipIf (s.reg x == nn)) := rfl

theorem exec_skipNeImm (x : Reg) (nn : Byte) (s : State) :
    exec (.skipNeImm x nn) s = .next (s.skipIf (s.reg x != nn)) := rfl

theorem exec_skipEqReg (x y : Reg) (s : State) :
    exec (.skipEqReg x y) s = .next (s.skipIf (s.reg x == s.reg y)) := rfl

theorem exec_skipNeReg (x y : Reg) (s : State) :
    exec (.skipNeReg x y) s = .next (s.skipIf (s.reg x != s.reg y)) := rfl

theorem skipIf_beq_pc (a b : Byte) (s : State) :
    (s.skipIf (a == b)).pc = if a = b then s.pc + 4 else s.pc + 2 := by
  simp only [State.skipIf_pc, beq_iff_eq]

theorem skipIf_bne_pc (a b : Byte) (s : State) :
    (s.skipIf (a != b)).pc = if a = b then s.pc + 2 else s.pc + 4 := by
  simp only [State.skipIf_pc, bne_iff_ne, ne_eq, ite_not]

/-- A skip changes `pc` alone (41_skip.md R250). -/
theorem skipIf_only_pc (b : Bool) (s : State) : OnlyChanges (· ∈ [.pc]) s (s.skipIf b) :=
  OnlyChanges.skipIf b (by simp)

/-- Settles O32: the family alone fixes the instruction, and its meaning is one conditional write of `pc`. -/
theorem skipsOnImmediate : Obligations.SkipsOnImmediate := by
  refine ⟨fun w hw => decodeWord_of_family_3 (fieldF_of_masked 0 (by decide) rfl hw),
    fun w hw => decodeWord_of_family_4 (fieldF_of_masked 0 (by decide) rfl hw), fun x nn s => ⟨?_, ?_⟩⟩
  · exact ⟨_, exec_skipEqImm x nn s, skipIf_beq_pc _ _ s, skipIf_only_pc _ s⟩
  · exact ⟨_, exec_skipNeImm x nn s, skipIf_bne_pc _ _ s, skipIf_only_pc _ s⟩

/-- Settles O33: the family and N = 0 fix the instruction, and its meaning is one conditional write of `pc`. -/
theorem skipsOnRegisters : Obligations.SkipsOnRegisters := by
  refine ⟨fun w hw => decodeWord_of_family_5 (fieldF_of_masked 4 (by decide) rfl hw)
      (fieldN_of_masked 4 (by decide) (by decide) rfl hw),
    fun w hw => decodeWord_of_family_9 (fieldF_of_masked 4 (by decide) rfl hw)
      (fieldN_of_masked 4 (by decide) (by decide) rfl hw), fun x y s => ⟨?_, ?_⟩⟩
  · exact ⟨_, exec_skipEqReg x y s, skipIf_beq_pc _ _ s, skipIf_only_pc _ s⟩
  · exact ⟨_, exec_skipNeReg x y s, skipIf_bne_pc _ _ s, skipIf_only_pc _ s⟩

end Sys2Proof.Machine
end

section
/-! PROOFS. Decoding of the loads, `add-imm` and the logical operations: the families 6, 7 and 8 (30_encoding.md R104,
R120). -/

namespace Sys2Proof

/-- Family 8 is told apart by N, and the mask 0xF00F keeps both fields: it is enough to decode by them. -/
theorem encodes_of_family_8 {p : Word} {instr : Word → Instr} (hp : p.toNat / 4096 = 0x8)
    (hdec : ∀ w, fieldF w = 0x8 → fieldN w = p.toNat % 16 → decodeWord w = .ok (instr w)) : Encodes 0xF00F p instr :=
  fun w h => hdec w ((fieldF_of_masked 4 (by decide) rfl h).trans hp) (fieldN_of_masked 4 (by decide) (by decide) rfl h)

theorem encodes_loadImm : Encodes 0xF000 0x6000 (fun w => .loadImm (fieldX w) (fieldNN w)) := by
  intro w h
  have hF : fieldF w = 0x6 := fieldF_of_masked 0 (by decide) rfl h
  simp [decodeWord, hF]

theorem encodes_addImm : Encodes 0xF000 0x7000 (fun w => .addImm (fieldX w) (fieldNN w)) := by
  intro w h
  have hF : fieldF w = 0x7 := fieldF_of_masked 0 (by decide) rfl h
  simp [decodeWord, hF]

theorem encodes_assign : Encodes 0xF00F 0x8000 (fun w => .assign (fieldX w) (fieldY w)) :=
  encodes_of_family_8 rfl fun w hF hN => by simp [decodeWord, hF, hN]

theorem encodes_or : Encodes 0xF00F 0x8001 (fun w => .or (fieldX w) (fieldY w)) :=
  encodes_of_family_8 rfl fun w hF hN => by simp [decodeWord, hF, hN]

theorem encodes_and : Encodes 0xF00F 0x8002 (fun w => .and (fieldX w) (fieldY w)) :=
  encodes_of_family_8 rfl fun w hF hN => by simp [decodeWord, hF, hN]

theorem encodes_xor : Encodes 0xF00F 0x8003 (fun w => .xor (fieldX w) (fieldY w)) :=
  encodes_of_family_8 rfl fun w hF hN => by simp [decodeWord, hF, hN]

end Sys2Proof
end

section
/-! PROOFS. The statements about the loads, `add-imm` and the logical operations of 42_alu.md: each is one
`writeResult`, so one register and `pc` change and no flag does (R302). -/

namespace Sys2Proof.Machine

theorem exec_loadImm (x : Reg) (nn : Byte) (s : State) : exec (.loadImm x nn) s = .next (writeResult s x nn) := rfl

theorem exec_addImm (x : Reg) (nn : Byte) (s : State) :
    exec (.addImm x nn) s = .next (writeResult s x (s.reg x + nn)) := rfl

theorem exec_assign (x y : Reg) (s : State) : exec (.assign x y) s = .next (writeResult s x (s.reg y)) := rfl

theorem exec_or (x y : Reg) (s : State) : exec (.or x y) s = .next (writeResult s x (s.reg x ||| s.reg y)) := rfl

theorem exec_and (x y : Reg) (s : State) : exec (.and x y) s = .next (writeResult s x (s.reg x &&& s.reg y)) := rfl

theorem exec_xor (x y : Reg) (s : State) : exec (.xor x y) s = .next (writeResult s x (s.reg x ^^^ s.reg y)) := rfl

@[simp] theorem writeResult_pc (s : State) (x : Reg) (v : Byte) : (writeResult s x v).pc = s.pc + 2 := rfl

@[simp] theorem writeResult_reg_same (s : State) (x : Reg) (v : Byte) : (writeResult s x v).reg x = v :=
  State.setReg_reg_same s x v

/-- The frame of R302: the named register and `pc`. -/
theorem writeResult_only_reg_pc (s : State) (x : Reg) (v : Byte) :
    OnlyChanges (· ∈ [.reg x, .pc]) s (writeResult s x v) :=
  writeResult_only x v (by simp) (by simp)

/-- Settles O35: the words are told apart by the family and N, and both meanings are one `writeResult`. -/
theorem loadsWriteOneRegister : Obligations.LoadsWriteOneRegister := by
  refine ⟨encodes_loadImm, encodes_assign, fun x nn s => ?_, fun x y s => ?_⟩
  · exact ⟨_, exec_loadImm x nn s, writeResult_reg_same s x _, writeResult_pc s x _, writeResult_only_reg_pc s x _⟩
  · exact ⟨_, exec_assign x y s, writeResult_reg_same s x _, writeResult_pc s x _, writeResult_only_reg_pc s x _⟩

/-- Settles O36: the sum of two bytes is their sum modulo 256, and no flag is among the items written. -/
theorem addImmWrapsWithoutFlag : Obligations.AddImmWrapsWithoutFlag := by
  refine ⟨encodes_addImm, fun x nn s => ⟨_, exec_addImm x nn s, ?_, writeResult_pc s x _, writeResult_only_reg_pc s x _⟩⟩
  rw [writeResult_reg_same, BitVec.toNat_add]

/-- Settles O37: each operation is one `writeResult` of the operation on bytes, which acts on every bit by itself. -/
theorem logicalOpsAreBitwise : Obligations.LogicalOpsAreBitwise := by
  refine ⟨encodes_or, encodes_and, encodes_xor, fun x y s => ⟨?_, ?_, ?_⟩⟩
  · refine ⟨_, exec_or x y s, writeResult_pc s x _, writeResult_only_reg_pc s x _, fun k => ?_⟩
    rw [writeResult_reg_same, BitVec.getLsbD_or]
  · refine ⟨_, exec_and x y s, writeResult_pc s x _, writeResult_only_reg_pc s x _, fun k => ?_⟩
    rw [writeResult_reg_same, BitVec.getLsbD_and]
  · refine ⟨_, exec_xor x y s, writeResult_pc s x _, writeResult_only_reg_pc s x _, fun k => ?_⟩
    rw [writeResult_reg_same, BitVec.getLsbD_xor]

end Sys2Proof.Machine
end

section
/-! PROOFS. Decoding of the instructions that set `I`: the families A and F (30_encoding.md R104, R120). -/

namespace Sys2Proof

/-- A mask that keeps at least the low byte keeps the selector, so a word that matches a pattern has the pattern's. -/
theorem selector_of_masked {w m p : Word} (k : Nat) (hk : k ≤ 12) (hk8 : 8 ≤ k) (hm : m.toNat = 0xF000 + (2 ^ k - 1))
    (h : w &&& m = p) : bits w 7 0 = p.toNat % 256 := by
  have hlow : w.toNat % 2 ^ k % 256 = w.toNat % 256 := Nat.mod_mod_of_dvd _ (Nat.pow_dvd_pow 2 hk8)
  rw [selector_eq, ← h, toNat_and_mask w m k hk hm]
  omega

/-- Family F is told apart by the low byte, and the mask 0xF0FF keeps both: it is enough to decode by them. -/
theorem encodes_of_family_F {p : Word} {instr : Word → Instr} (hp : p.toNat / 4096 = 0xF)
    (hdec : ∀ w, fieldF w = 0xF → bits w 7 0 = p.toNat % 256 → decodeWord w = .ok (instr w)) : Encodes 0xF0FF p instr :=
  fun w h => hdec w ((fieldF_of_masked 8 (by decide) rfl h).trans hp) (selector_of_masked 8 (by decide) (by decide) rfl h)

theorem encodes_loadAddr : Encodes 0xF000 0xA000 (fun w => .loadAddr (fieldNNN w)) := by
  intro w h
  have hF : fieldF w = 0xA := fieldF_of_masked 0 (by decide) rfl h
  simp [decodeWord, hF]

theorem encodes_addAddr : Encodes 0xF0FF 0xF01E (fun w => .addAddr (fieldX w)) :=
  encodes_of_family_F rfl fun w hF hsel => by simp [decodeWord, hF, hsel]

theorem encodes_fontAddr : Encodes 0xF0FF 0xF029 (fun w => .fontAddr (fieldX w)) :=
  encodes_of_family_F rfl fun w hF hsel => by simp [decodeWord, hF, hsel]

end Sys2Proof
end

section
/-! PROOFS. The statements about the instructions of 43_index_memory.md that only set `I`: each is one write of `I` and
the move to the next instruction, so no flag changes (R401 to R403). -/

namespace Sys2Proof.Machine

theorem exec_loadAddr (a : Addr12) (s : State) : exec (.loadAddr a) s = .next (s.setI (zextNNN a)).advance := rfl

theorem exec_addAddr (x : Reg) (s : State) :
    exec (.addAddr x) s = .next (s.setI (s.I + zextByte (s.reg x))).advance := rfl

theorem exec_fontAddr (x : Reg) (s : State) :
    exec (.fontAddr x) s = .next (s.setI (zextByte (s.reg x) * 5)).advance := rfl

/-- A sum with a byte is taken modulo 2^16 (R402). -/
theorem add_zextByte_toNat (i : Word) (v : Byte) : (i + zextByte v).toNat = (i.toNat + v.toNat) % 65536 := by
  rw [BitVec.toNat_add, zextByte_toNat]

/-- R403's product is at most 255 * 5, so its reduction modulo 2^16 never takes effect. -/
theorem zextByte_mul_five_toNat (v : Byte) : (zextByte v * 5).toNat = v.toNat * 5 := by
  have := v.isLt
  simp only [BitVec.toNat_mul, zextByte_toNat, BitVec.reduceToNat]
  omega

/-- The frame of R401 to R403: `I` and `pc`. -/
theorem setI_advance_only (s : State) (v : Word) : OnlyChanges (· ∈ [.I, .pc]) s (s.setI v).advance :=
  (OnlyChanges.setI v (by simp)).trans (OnlyChanges.advance (by simp))

/-- Settles O42: the family alone fixes the instruction, and zero extension keeps the value of NNN. -/
theorem loadAddrSetsI : Obligations.LoadAddrSetsI :=
  ⟨encodes_loadAddr, fun a s => ⟨_, exec_loadAddr a s, zextNNN_toNat a, rfl, setI_advance_only s _⟩⟩

/-- Settles O43: the family and the low byte fix the instruction; the sum wraps at 2^16, the product never reaches it. -/
theorem addAddrAndFontAddr : Obligations.AddAddrAndFontAddr := by
  refine ⟨encodes_addAddr, encodes_fontAddr, fun x s => ⟨?_, ?_⟩⟩
  · exact ⟨_, exec_addAddr x s, add_zextByte_toNat s.I (s.reg x), rfl, setI_advance_only s _⟩
  · exact ⟨_, exec_fontAddr x s, zextByte_mul_five_toNat (s.reg x), rfl, setI_advance_only s _⟩

end Sys2Proof.Machine
end

section
/-! PROOFS. Decoding of the timer instructions: family F with the selectors 07, 15 and 18 (30_encoding.md R104, R120). -/

namespace Sys2Proof

theorem encodes_getDelay : Encodes 0xF0FF 0xF007 (fun w => .getDelay (fieldX w)) :=
  encodes_of_family_F rfl fun w hF hsel => by simp [decodeWord, hF, hsel]

theorem encodes_setDelay : Encodes 0xF0FF 0xF015 (fun w => .setDelay (fieldX w)) :=
  encodes_of_family_F rfl fun w hF hsel => by simp [decodeWord, hF, hsel]

theorem encodes_setSound : Encodes 0xF0FF 0xF018 (fun w => .setSound (fieldX w)) :=
  encodes_of_family_F rfl fun w hF hsel => by simp [decodeWord, hF, hsel]

end Sys2Proof
end

section
/-! PROOFS. The statement about the timer instructions of 44_timers_keys.md: reading the delay timer is one
`writeResult`, setting a timer is one write of that timer and the move to the next instruction (R451 to R453). -/

namespace Sys2Proof.Machine

theorem exec_getDelay (x : Reg) (s : State) : exec (.getDelay x) s = .next (writeResult s x s.DT) := rfl

theorem exec_setDelay (x : Reg) (s : State) : exec (.setDelay x) s = .next (s.setDT (s.reg x)).advance := rfl

theorem exec_setSound (x : Reg) (s : State) : exec (.setSound x) s = .next (s.setST (s.reg x)).advance := rfl

/-- The frame of R452: `DT` and `pc`. -/
theorem setDT_advance_only (s : State) (v : Byte) : OnlyChanges (· ∈ [.DT, .pc]) s (s.setDT v).advance :=
  (OnlyChanges.setDT v (by simp)).trans (OnlyChanges.advance (by simp))

/-- The frame of R453: `ST` and `pc`. -/
theorem setST_advance_only (s : State) (v : Byte) : OnlyChanges (· ∈ [.ST, .pc]) s (s.setST v).advance :=
  (OnlyChanges.setST v (by simp)).trans (OnlyChanges.advance (by simp))

/-- Settles O49: family F and the low byte fix the instruction, and each meaning writes one byte and `pc`. -/
theorem timerMoves : Obligations.TimerMoves := by
  refine ⟨encodes_getDelay, encodes_setDelay, encodes_setSound, fun x s => ⟨?_, ?_, ?_⟩⟩
  · exact ⟨_, exec_getDelay x s, writeResult_reg_same s x _, writeResult_pc s x _, writeResult_only_reg_pc s x _⟩
  · exact ⟨_, exec_setDelay x s, rfl, rfl, setDT_advance_only s _⟩
  · exact ⟨_, exec_setSound x s, rfl, rfl, setST_advance_only s _⟩

end Sys2Proof.Machine
end

section
/-! PROOFS. Decoding of `clear-screen`: the mask of the fixed format leaves no bit free (30_encoding.md R104, R120). -/

namespace Sys2Proof

/-- A word that matches the full mask is the pattern itself, so one decoding decides the fixed format. -/
theorem encodes_of_full_mask {p : Word} {i : Instr} (hdec : decodeWord p = .ok i) : Encodes 0xFFFF p (fun _ => i) := by
  intro w hw
  have hword : w = p := BitVec.and_allOnes.symm.trans hw
  rw [hword, hdec]

theorem encodes_clearScreen : Encodes 0xFFFF 0x00E0 (fun _ => .clearScreen) :=
  encodes_of_full_mask (by decide)

end Sys2Proof
end

section
/-! PROOFS. The statement about `clear-screen` of 45_display.md: the cleared framebuffer, the redraw flag and the move to
the next instruction (R501). -/

namespace Sys2Proof.Machine

theorem exec_clearScreen (s : State) : exec .clearScreen s = .next (s.clearPixels.setRedraw true).advance := rfl

/-- The frame of R501: the pixels, `redraw` and `pc`. -/
theorem clearPixels_setRedraw_advance_only (s : State) :
    OnlyChanges (fun it => it = .pc ∨ it = .redraw ∨ ∃ c r, it = .pixel c r) s
      (s.clearPixels.setRedraw true).advance :=
  ((OnlyChanges.clearPixels fun c r => .inr (.inr ⟨c, r, rfl⟩)).trans
    (OnlyChanges.setRedraw true (.inr (.inl rfl)))).trans (OnlyChanges.advance (.inl rfl))

/-- Settles O51: the word alone fixes the instruction; the pixels read 0 because the two later writes leave them. -/
theorem clearScreenFillsWithZero : Obligations.ClearScreenFillsWithZero := by
  refine ⟨encodes_clearScreen, fun s => ⟨_, exec_clearScreen s, fun c r => ?_, rfl, rfl,
    clearPixels_setRedraw_advance_only s⟩⟩
  rw [State.advance_pixel, State.setRedraw_pixel, State.clearPixels_pixel]

end Sys2Proof.Machine
end

section
/-! PROOFS. Decoding and encoding are inverse to each other (30_encoding.md R104, R107): the family and the selector read
back from each format's word, and each format's word rebuilt from the fields read. -/

namespace Sys2Proof

/-! ## The family and the selector of each format's word -/

@[simp] theorem fieldF_wordNNN (f : Nat) (a : Addr12) (hf : f < 16) : fieldF (wordNNN f a) = f := by
  have := a.isLt
  rw [fieldF_eq, toNat_wordNNN f a hf]; omega

@[simp] theorem fieldF_wordXNN (f : Nat) (x : Reg) (k : Byte) (hf : f < 16) : fieldF (wordXNN f x k) = f := by
  have := x.isLt
  have := k.isLt
  rw [fieldF_eq, toNat_wordXNN f x k hf]; omega

@[simp] theorem fieldF_wordXYN (f : Nat) (x y : Reg) (n : Nat) (hf : f < 16) (hn : n < 16) :
    fieldF (wordXYN f x y n) = f := by
  have := x.isLt
  have := y.isLt
  rw [fieldF_eq, toNat_wordXYN f x y n hf hn]; omega

@[simp] theorem selector_wordXNN (f : Nat) (x : Reg) (k : Byte) (hf : f < 16) : bits (wordXNN f x k) 7 0 = k.toNat := by
  have := k.isLt
  rw [selector_eq, toNat_wordXNN f x k hf]; omega

/-- Every format's word reads back its family, its selector and its operands, so a well-formed instruction decodes from
its own word. -/
theorem decodeWord_encode (i : Instr) (h : i.wf = true) : decodeWord (encode i) = .ok i := by
  cases i with
  | clearScreen | ret => decide
  | jump | call | loadAddr | jumpOffset => simp [encode, decodeWord]
  | skipEqImm | skipNeImm | loadImm | addImm | rand => simp [encode, decodeWord]
  | skipEqReg | skipNeReg => simp [encode, decodeWord]
  | assign | or | and | xor | add | sub | shr | subn | shl => simp [encode, decodeWord]
  | draw x y n =>
    have hn : n < 16 := of_decide_eq_true h
    simp [encode, decodeWord, hn]
  | getDelay | setDelay | setSound | addAddr | fontAddr | bcdStore | regDump | regLoad | skipKey | skipNkey | waitKey =>
    simp [encode, decodeWord]

theorem decodeBytes_of_decodeWord {hi lo : Byte} {i : Instr} (rest : List Byte)
    (h : decodeWord (wordOfBytes hi lo) = .ok i) : decodeBytes (hi :: lo :: rest) = .ok (i, rest) := by
  simp [decodeBytes, h]

/-- Settles O1: the two bytes are put together to the word again, and the word reads back every field. -/
theorem decodeOfEncodedInstruction : Obligations.DecodeOfEncodedInstruction := by
  intro i rest h
  refine decodeBytes_of_decodeWord rest ?_
  rw [wordOfBytes_highByte_lowByte, decodeWord_encode i h]

/-! ## Each format's word from the fields of a word -/

theorem wordNNN_fields {w : Word} {f : Nat} (hF : fieldF w = f) : wordNNN f (fieldNNN w) = w := by
  rw [fieldF_eq] at hF
  have := w.isLt
  refine BitVec.eq_of_toNat_eq ?_
  rw [toNat_wordNNN _ _ (by omega), fieldNNN_toNat]; omega

theorem wordXNN_fields {w : Word} {f : Nat} (hF : fieldF w = f) : wordXNN f (fieldX w) (fieldNN w) = w := by
  rw [fieldF_eq] at hF
  have := w.isLt
  refine BitVec.eq_of_toNat_eq ?_
  rw [toNat_wordXNN _ _ _ (by omega), fieldX_val, fieldNN_toNat]; omega

theorem wordXYN_fields {w : Word} {f n : Nat} (hF : fieldF w = f) (hN : fieldN w = n) :
    wordXYN f (fieldX w) (fieldY w) n = w := by
  rw [fieldF_eq] at hF
  rw [fieldN_eq] at hN
  have := w.isLt
  refine BitVec.eq_of_toNat_eq ?_
  rw [toNat_wordXYN _ _ _ _ (by omega) (by omega), fieldX_val, fieldY_val]; omega

/-- The `x` format: the low byte is the selector. -/
theorem wordX_fields {w : Word} {f : Nat} {k : Byte} (hF : fieldF w = f) (hk : bits w 7 0 = k.toNat) :
    wordXNN f (fieldX w) k = w := by
  have hNN : fieldNN w = k := BitVec.eq_of_toNat_eq (by rw [fieldNN_toNat, ← selector_eq, hk])
  rw [← hNN, wordXNN_fields hF]

theorem fieldN_lt (w : Word) : fieldN w < 16 := by rw [fieldN_eq]; omega

/-- Settles O2: in every branch of the decoder the fields it has tested and the operands it has read are all of the word. -/
theorem encodeOfDecodedWord : Obligations.EncodeOfDecodedWord := by
  intro w i h
  unfold decodeWord at h
  split at h
  case h_1 =>
    split at h
    · next hw => cases h; exact ⟨rfl, hw.symm⟩
    · split at h
      · next hw => cases h; exact ⟨rfl, hw.symm⟩
      · cases h
  case h_6 hF | h_10 hF =>
    split at h
    · next hN => cases h; exact ⟨rfl, wordXYN_fields hF hN⟩
    · cases h
  case h_9 hF =>
    split at h
    all_goals cases h
    all_goals exact ⟨rfl, wordXYN_fields hF ‹_›⟩
  case h_14 hF => cases h; exact ⟨decide_eq_true (fieldN_lt w), wordXYN_fields hF rfl⟩
  case h_15 hF | h_16 hF =>
    split at h
    all_goals cases h
    all_goals exact ⟨rfl, wordX_fields hF ‹_›⟩
  case h_17 => cases h
  case h_2 hF | h_3 hF | h_11 hF | h_12 hF => cases h; exact ⟨rfl, wordNNN_fields hF⟩
  case h_4 hF | h_5 hF | h_7 hF | h_8 hF | h_13 hF => cases h; exact ⟨rfl, wordXNN_fields hF⟩

end Sys2Proof
end

section
/-! PROOFS. The opcode map: every row's words decode, and no two rows share a word or a mnemonic (30_encoding.md R107,
R120). -/

namespace Sys2Proof

/-! ## The rows whose encoding is not stated above -/

/-- Where the family alone is fixed, it is enough to decode by it. -/
theorem encodes_of_family {p : Word} {instr : Word → Instr}
    (hdec : ∀ w, fieldF w = p.toNat / 4096 → decodeWord w = .ok (instr w)) : Encodes 0xF000 p instr :=
  fun w h => hdec w (fieldF_of_masked 0 (by decide) rfl h)

/-- Family E is told apart by the low byte, as family F is. -/
theorem encodes_of_family_E {p : Word} {instr : Word → Instr} (hp : p.toNat / 4096 = 0xE)
    (hdec : ∀ w, fieldF w = 0xE → bits w 7 0 = p.toNat % 256 → decodeWord w = .ok (instr w)) : Encodes 0xF0FF p instr :=
  fun w h => hdec w ((fieldF_of_masked 8 (by decide) rfl h).trans hp) (selector_of_masked 8 (by decide) (by decide) rfl h)

theorem encodes_ret : Encodes 0xFFFF 0x00EE (fun _ => .ret) :=
  encodes_of_full_mask (by decide)

theorem encodes_call : Encodes 0xF000 0x2000 (fun w => .call (fieldNNN w)) :=
  encodes_of_family fun w hF => by simp [decodeWord, hF]

theorem encodes_add : Encodes 0xF00F 0x8004 (fun w => .add (fieldX w) (fieldY w)) :=
  encodes_of_family_8 rfl fun w hF hN => by simp [decodeWord, hF, hN]

theorem encodes_sub : Encodes 0xF00F 0x8005 (fun w => .sub (fieldX w) (fieldY w)) :=
  encodes_of_family_8 rfl fun w hF hN => by simp [decodeWord, hF, hN]

theorem encodes_shr : Encodes 0xF00F 0x8006 (fun w => .shr (fieldX w) (fieldY w)) :=
  encodes_of_family_8 rfl fun w hF hN => by simp [decodeWord, hF, hN]

theorem encodes_subn : Encodes 0xF00F 0x8007 (fun w => .subn (fieldX w) (fieldY w)) :=
  encodes_of_family_8 rfl fun w hF hN => by simp [decodeWord, hF, hN]

theorem encodes_shl : Encodes 0xF00F 0x800E (fun w => .shl (fieldX w) (fieldY w)) :=
  encodes_of_family_8 rfl fun w hF hN => by simp [decodeWord, hF, hN]

theorem encodes_rand : Encodes 0xF000 0xC000 (fun w => .rand (fieldX w) (fieldNN w)) :=
  encodes_of_family fun w hF => by simp [decodeWord, hF]

theorem encodes_draw : Encodes 0xF000 0xD000 (fun w => .draw (fieldX w) (fieldY w) (fieldN w)) :=
  encodes_of_family fun w hF => by simp [decodeWord, hF]

theorem encodes_bcdStore : Encodes 0xF0FF 0xF033 (fun w => .bcdStore (fieldX w)) :=
  encodes_of_family_F rfl fun w hF hsel => by simp [decodeWord, hF, hsel]

theorem encodes_regDump : Encodes 0xF0FF 0xF055 (fun w => .regDump (fieldX w)) :=
  encodes_of_family_F rfl fun w hF hsel => by simp [decodeWord, hF, hsel]

theorem encodes_regLoad : Encodes 0xF0FF 0xF065 (fun w => .regLoad (fieldX w)) :=
  encodes_of_family_F rfl fun w hF hsel => by simp [decodeWord, hF, hsel]

theorem encodes_skipKey : Encodes 0xF0FF 0xE09E (fun w => .skipKey (fieldX w)) :=
  encodes_of_family_E rfl fun w hF hsel => by simp [decodeWord, hF, hsel]

theorem encodes_skipNkey : Encodes 0xF0FF 0xE0A1 (fun w => .skipNkey (fieldX w)) :=
  encodes_of_family_E rfl fun w hF hsel => by simp [decodeWord, hF, hsel]

theorem encodes_waitKey : Encodes 0xF0FF 0xF00A (fun w => .waitKey (fieldX w)) :=
  encodes_of_family_F rfl fun w hF hsel => by simp [decodeWord, hF, hsel]

/-! ## The map as a whole -/

/-- The words of a row all decode. -/
def OpcodeRow.Decodes (r : OpcodeRow) : Prop := ∃ instr, Encodes r.mask r.pattern instr

theorem opcodeRowsA_decode : opcodeRowsA.Forall OpcodeRow.Decodes :=
  ⟨⟨_, encodes_clearScreen⟩, ⟨_, encodes_ret⟩, ⟨_, Machine.jumpSetsPc.1⟩, ⟨_, encodes_call⟩,
    ⟨_, Machine.skipsOnImmediate.1⟩, ⟨_, Machine.skipsOnImmediate.2.1⟩, ⟨_, Machine.skipsOnRegisters.1⟩,
    ⟨_, encodes_loadImm⟩, ⟨_, encodes_addImm⟩, ⟨_, encodes_assign⟩, ⟨_, encodes_or⟩, ⟨_, encodes_and⟩⟩

theorem opcodeRowsB_decode : opcodeRowsB.Forall OpcodeRow.Decodes :=
  ⟨⟨_, encodes_xor⟩, ⟨_, encodes_add⟩, ⟨_, encodes_sub⟩, ⟨_, encodes_shr⟩, ⟨_, encodes_subn⟩, ⟨_, encodes_shl⟩,
    ⟨_, Machine.skipsOnRegisters.2.1⟩, ⟨_, encodes_loadAddr⟩, ⟨_, Machine.jumpOffsetAddsTwo.1⟩, ⟨_, encodes_rand⟩,
    ⟨_, encodes_draw⟩⟩

theorem opcodeRowsC_decode : opcodeRowsC.Forall OpcodeRow.Decodes :=
  ⟨⟨_, encodes_getDelay⟩, ⟨_, encodes_setDelay⟩, ⟨_, encodes_setSound⟩, ⟨_, encodes_addAddr⟩, ⟨_, encodes_fontAddr⟩,
    ⟨_, encodes_bcdStore⟩, ⟨_, encodes_regDump⟩, ⟨_, encodes_regLoad⟩, ⟨_, encodes_skipKey⟩, ⟨_, encodes_skipNkey⟩,
    ⟨_, encodes_waitKey⟩⟩

/-- A word that a row covers decodes. -/
theorem decodeWord_of_covers {r : OpcodeRow} {w : Word} (hr : r ∈ opcodeTable) (h : r.covers w = true) :
    ∃ i, decodeWord w = .ok i := by
  have hdec : opcodeTable.Forall OpcodeRow.Decodes :=
    List.forall_append.2 ⟨List.forall_append.2 ⟨opcodeRowsA_decode, opcodeRowsB_decode⟩, opcodeRowsC_decode⟩
  obtain ⟨instr, henc⟩ := List.forall_iff_forall_mem.1 hdec r hr
  exact ⟨_, henc w (beq_iff_eq.1 h)⟩

/-- Two rows that cover one word agree on the bits both masks keep. -/
theorem pattern_and_masks_eq {r q : OpcodeRow} {w : Word} (hr : r.covers w = true) (hq : q.covers w = true) :
    r.pattern &&& (r.mask &&& q.mask) = q.pattern &&& (r.mask &&& q.mask) := by
  rw [← beq_iff_eq.1 hr, ← beq_iff_eq.1 hq]
  ext k
  simp only [BitVec.getElem_and]
  cases w[k] <;> cases r.mask[k] <;> cases q.mask[k] <;> rfl

/-- No two rows cover one word (R107). -/
theorem row_eq_of_covers {r q : OpcodeRow} {w : Word} (hr : r ∈ opcodeTable) (hq : q ∈ opcodeTable)
    (hrw : r.covers w = true) (hqw : q.covers w = true) : r = q := by
  have hnot : opcodeTable.Pairwise fun a b => ¬ (a.covers w = true ∧ b.covers w = true) :=
    opcodeTable_no_overlap.imp fun hab h => hab (pattern_and_masks_eq h.1 h.2)
  exact List.Pairwise.forall_of_forall_of_flip (R := fun a b => a.covers w = true ∧ b.covers w = true → a = b)
    (fun _ _ _ => rfl) (hnot.imp fun hab h => absurd h hab) (hnot.imp fun hab h => absurd h.symm hab) hr hq ⟨hrw, hqw⟩

theorem mnemonics_nodup : (opcodeTable.map OpcodeRow.mnemonic).Nodup := by decide

/-- Every instruction's word is covered by the row of its mnemonic. -/
theorem encodesOwnRow : (i : Instr) → Laws.EncodesOwnRow.Statement i
  | .clearScreen => Laws.EncodesOwnRow.clearScreen
  | .ret => Laws.EncodesOwnRow.ret
  | .jump a => Laws.EncodesOwnRow.jump a
  | .call a => Laws.EncodesOwnRow.call a
  | .skipEqImm a b => Laws.EncodesOwnRow.skipEqImm a b
  | .skipNeImm a b => Laws.EncodesOwnRow.skipNeImm a b
  | .skipEqReg a b => Laws.EncodesOwnRow.skipEqReg a b
  | .loadImm a b => Laws.EncodesOwnRow.loadImm a b
  | .addImm a b => Laws.EncodesOwnRow.addImm a b
  | .assign a b => Laws.EncodesOwnRow.assign a b
  | .or a b => Laws.EncodesOwnRow.or a b
  | .and a b => Laws.EncodesOwnRow.and a b
  | .xor a b => Laws.EncodesOwnRow.xor a b
  | .add a b => Laws.EncodesOwnRow.add a b
  | .sub a b => Laws.EncodesOwnRow.sub a b
  | .shr a b => Laws.EncodesOwnRow.shr a b
  | .subn a b => Laws.EncodesOwnRow.subn a b
  | .shl a b => Laws.EncodesOwnRow.shl a b
  | .skipNeReg a b => Laws.EncodesOwnRow.skipNeReg a b
  | .loadAddr a => Laws.EncodesOwnRow.loadAddr a
  | .jumpOffset a => Laws.EncodesOwnRow.jumpOffset a
  | .rand a b => Laws.EncodesOwnRow.rand a b
  | .draw a b c => Laws.EncodesOwnRow.draw a b c
  | .getDelay a => Laws.EncodesOwnRow.getDelay a
  | .setDelay a => Laws.EncodesOwnRow.setDelay a
  | .setSound a => Laws.EncodesOwnRow.setSound a
  | .addAddr a => Laws.EncodesOwnRow.addAddr a
  | .fontAddr a => Laws.EncodesOwnRow.fontAddr a
  | .bcdStore a => Laws.EncodesOwnRow.bcdStore a
  | .regDump a => Laws.EncodesOwnRow.regDump a
  | .regLoad a => Laws.EncodesOwnRow.regLoad a
  | .skipKey a => Laws.EncodesOwnRow.skipKey a
  | .skipNkey a => Laws.EncodesOwnRow.skipNkey a
  | .waitKey a => Laws.EncodesOwnRow.waitKey a

/-- Settles O3: the row of the instruction covers its word, no second row does, and every covered word decodes. -/
theorem decodeFollowsOpcodeMap : Obligations.DecodeFollowsOpcodeMap := by
  refine ⟨fun w i h r hr => ?_, fun w e h => ?_⟩
  · obtain ⟨hwf, rfl⟩ := encodeOfDecodedWord w i h
    obtain ⟨q, hq, hmn, hcov⟩ := encodesOwnRow i hwf
    constructor
    · intro hrw
      rw [row_eq_of_covers hr hq hrw hcov, hmn]
    · intro hrm
      rwa [List.inj_on_of_nodup_map mnemonics_nodup hr hq (hrm.trans hmn.symm)]
  · refine ⟨decodeWord_error w e h, fun r hr => Bool.eq_false_iff.2 fun hcov => ?_⟩
    obtain ⟨i, hi⟩ := decodeWord_of_covers hr hcov
    rw [h] at hi
    cases hi

end Sys2Proof
end

section
/-! PROOFS. The illegal words and the sample words of 30_encoding.md (R104, R121). -/

namespace Sys2Proof

/-- The words the decoder rejects, by the fields it tests: every family with a second test has its own list, the families
without one reject nothing. -/
theorem decodeWord_illegal_iff (w : Word) : decodeWord w = .error (.illegal w) ↔
    (fieldF w = 0 ∧ w ≠ 0x00E0#16 ∧ w ≠ 0x00EE#16) ∨
    (fieldF w = 5 ∧ fieldN w ≠ 0) ∨
    (fieldF w = 8 ∧ fieldN w ∈ [0x8, 0x9, 0xA, 0xB, 0xC, 0xD, 0xF]) ∨
    (fieldF w = 9 ∧ fieldN w ≠ 0) ∨
    (fieldF w = 14 ∧ bits w 7 0 ∉ [0x9E, 0xA1]) ∨
    (fieldF w = 15 ∧ bits w 7 0 ∉ [0x07, 0x0A, 0x15, 0x18, 0x1E, 0x29, 0x33, 0x55, 0x65]) := by
  have hNlt := fieldN_lt w
  have hFlt : fieldF w < 16 := by have := w.isLt; rw [fieldF_eq]; omega
  unfold decodeWord
  split
  case h_1 hF => split <;> simp_all
  case h_6 hF | h_10 hF => split <;> simp_all
  case h_9 hF =>
    split
    case h_10 => simp_all; omega
    all_goals simp_all
  case h_15 hF | h_16 hF => split <;> simp_all
  case h_17 => simp_all; omega
  all_goals simp_all

/-- Settles O4: the decoder's own tests of the family, N and the low byte, in numbers. -/
theorem illegalWordsAreTheListedOnes : Obligations.IllegalWordsAreTheListedOnes := by
  intro w
  rw [decodeWord_illegal_iff, fieldF_eq, fieldN_eq, selector_eq]
  simp only [ne_eq, ← BitVec.toNat_inj, BitVec.reduceToNat]

/-- Settles O5: the decoder runs on seven fixed words. -/
theorem sampleWordsDecode : Obligations.SampleWordsDecode := by
  unfold Obligations.SampleWordsDecode
  decide

end Sys2Proof
end

section
/-! PROOFS. The instructions that branch on the stack or on the keys: one equation a branch (40_control_flow.md R202 to R205,
41_skip.md R255, R256, 44_timers_keys.md R455). -/

namespace Sys2Proof.Machine

theorem exec_ret_of_saved (s : State) (k : Fin 16) (h : s.sp.val = k.val + 1) :
    exec .ret s = .next (State.setPc { s with sp := ⟨k.val, by omega⟩ } (s.entry k + 2)) := by
  show execReturn s = _
  rw [execReturn, pop_of_succ s k h]

theorem exec_ret_of_empty (s : State) (h : s.sp.val = 0) : exec .ret s = .next (s.raise .stackUnderflow) := by
  show execReturn s = _
  rw [execReturn, (pop_none_iff s).2 h]

theorem exec_call_of_push (a : Addr12) {s t : State} (h : s.push s.pc = some t) :
    exec (.call a) s = .next (t.setPc (zextNNN a)) := by
  show execCall a s = _
  rw [execCall, h]

theorem exec_call_of_full (a : Addr12) (s : State) (h : s.sp.val = 16) :
    exec (.call a) s = .next (s.raise .stackOverflow) := by
  show execCall a s = _
  rw [execCall, (push_none_iff s s.pc).2 h]

theorem exists_push_of_lt (s : State) (v : Word) (h : s.sp.val < 16) : ∃ t, s.push v = some t := by
  refine Option.ne_none_iff_exists'.1 fun hnone => ?_
  have := (push_none_iff s v).1 hnone
  omega

/-- The stack is empty or has a last entry. -/
theorem sp_eq_zero_or_succ (s : State) : s.sp.val = 0 ∨ ∃ k : Fin 16, s.sp.val = k.val + 1 := by
  have := s.sp.isLt
  rcases Nat.eq_zero_or_pos s.sp.val with h | h
  · exact .inl h
  · exact .inr ⟨⟨s.sp.val - 1, by omega⟩, by simp only; omega⟩

/-- A register names a key or holds a value above 15. -/
theorem namesKey_or_not (v : Byte) : (∃ k : Key, v.toNat = k.val) ∨ v.toNat > 15 := by
  by_cases h : v.toNat < 16
  · exact .inl ⟨⟨v.toNat, h⟩, rfl⟩
  · exact .inr (by omega)

section
variable (x : Reg) (s : State)

theorem exec_skipKey_of_key {k : Key} (h : (s.reg x).toNat = k.val) :
    exec (.skipKey x) s = .next (s.skipIf (s.key k)) := by
  show execSkipKey x s = _
  rw [execSkipKey, keyOf_of_val _ k h]

theorem exec_skipNkey_of_key {k : Key} (h : (s.reg x).toNat = k.val) :
    exec (.skipNkey x) s = .next (s.skipIf (!s.key k)) := by
  show execSkipNkey x s = _
  rw [execSkipNkey, keyOf_of_val _ k h]

theorem exec_skipKey_of_no_key (h : (s.reg x).toNat > 15) : exec (.skipKey x) s = .next (s.raise .outOfBounds) := by
  show execSkipKey x s = _
  rw [execSkipKey, (keyOf_none_iff _).2 h]

theorem exec_skipNkey_of_no_key (h : (s.reg x).toNat > 15) : exec (.skipNkey x) s = .next (s.raise .outOfBounds) := by
  show execSkipNkey x s = _
  rw [execSkipNkey, (keyOf_none_iff _).2 h]

theorem exec_waitKey_of_pressed {k : Key} (h : selectKey s = some k) : exec (.waitKey x) s = .next (storeKey s x k) := by
  show execWaitKey x s = _
  rw [execWaitKey, h]

theorem exec_waitKey_of_none (h : selectKey s = none) :
    exec (.waitKey x) s = .next (s.setStatus (.awaitingKey x)) := by
  show execWaitKey x s = _
  rw [execWaitKey, h]

end

end Sys2Proof.Machine
end

section
/-! PROOFS. How an instruction can end, said once: it raises a fault, it waits for a key, or it completes (30_encoding.md
R130, 60_exceptions.md R604). -/

namespace Sys2Proof.Machine

/-- Where a completed instruction can leave `pc`: past itself, past the next instruction, at a target of at most 0x1100
(40_control_flow.md R204 to R206), or past the `call` of a saved address (R203). -/
inductive Successor (s : State) : Word → Prop where
  | next : Successor s (s.pc + 2)
  | skip : Successor s (s.pc + 4)
  | target {v : Word} (h : v.toNat ≤ 0x1100) : Successor s v
  | resume (k : Fin 16) (h : k.val < s.sp.val) : Successor s (s.entry k + 2)

/-- What every completed instruction keeps: the machine is neither stopped nor started, memory stays canonical, and an entry
in use was in use before or is the instruction's own address. -/
structure Completes (s t : State) : Prop where
  status : t.status = s.status
  fault : t.fault = s.fault
  memory : Memory.wf s.mem → Memory.wf t.mem
  saved : ∀ k : Fin 16, k.val < t.sp.val → (k.val < s.sp.val ∧ t.entry k = s.entry k) ∨ t.entry k = s.pc
  counter : Successor s t.pc

/-- The three ways `i` can end from `s`. -/
inductive Ends (i : Instr) (s : State) : State → Prop where
  | raised (k : Fault) (hk : k ≠ .romTooLarge) : Ends i s (s.raise k)
  | waits (x : Reg) (hi : i = .waitKey x) (hk : selectKey s = none) : Ends i s (s.setStatus (.awaitingKey x))
  | completed {t : State} (h : Completes s t) : Ends i s t

/-- The outcome of `i` from `s` is a next state at which `i` has ended. -/
def EndsIn (i : Instr) (s : State) (o : Outcome) : Prop := ∃ t, o = .next t ∧ Ends i s t

section
variable {i : Instr} {s t : State}

theorem endsIn_completed (h : Completes s t) : EndsIn i s (.next t) := ⟨t, rfl, .completed h⟩

theorem endsIn_raised (k : Fault) (hk : k ≠ .romTooLarge) : EndsIn i s (.next (s.raise k)) := ⟨_, rfl, .raised k hk⟩

theorem endsIn_withinMemory {last : Nat} (h : last < Config.memSize → Completes s t) :
    EndsIn i s (withinMemory last s t) := by
  rcases withinMemory_cases last s t with ⟨hl, e⟩ | ⟨-, e⟩ <;> rw [e]
  · exact endsIn_completed (h hl)
  · exact endsIn_raised _ (by decide)

/-- Every instruction but `call` and `return` leaves the stack as it is. -/
theorem completes_of_same_stack (hst : t.status = s.status) (hf : t.fault = s.fault)
    (hm : Memory.wf s.mem → Memory.wf t.mem) (hsp : t.sp = s.sp) (hstack : t.stack = s.stack)
    (hc : Successor s t.pc) : Completes s t where
  status := hst
  fault := hf
  memory := hm
  saved := fun k hk => .inl ⟨hsp ▸ hk, by rw [State.entry, hstack, State.entry]⟩
  counter := hc

theorem skipIf_successor (b : Bool) : Successor s (s.skipIf b).pc := by
  cases b
  · exact .next
  · exact .skip

theorem completes_skipIf (b : Bool) : Completes s (s.skipIf b) :=
  completes_of_same_stack rfl rfl id rfl rfl (skipIf_successor b)

theorem completes_setPc {v : Word} (h : v.toNat ≤ 0x1100) : Completes s (s.setPc v) :=
  completes_of_same_stack rfl rfl id rfl rfl (.target h)

end

theorem zextNNN_le (a : Addr12) : (zextNNN a).toNat ≤ 0x1100 := by
  have := a.isLt
  rw [zextNNN_toNat]; omega

theorem jumpOffset_target_le (v : Byte) (a : Addr12) : (zextByte v + zextNNN a + 2).toNat ≤ 0x1100 := by
  have := v.isLt
  have := a.isLt
  rw [jumpOffset_target_toNat]; omega

theorem storeDigits_wf (s : State) (v : Byte) (hm : Memory.wf s.mem) (h : effAddr s 2 < Config.memSize) :
    Memory.wf (storeDigits s v).mem := by
  have h0 : effAddr s 0 < Config.memSize := by simp only [effAddr] at *; omega
  have h1 : effAddr s 1 < Config.memSize := by simp only [effAddr] at *; omega
  exact State.writeByte_wf _ _ _ (State.writeByte_wf _ _ _ (State.writeByte_wf _ _ _ hm h0) h1) h

theorem effAddr_lt_of_mem_block {s : State} {x : Reg} (h : effAddr s x.val < Config.memSize) :
    ∀ k ∈ regsUpTo x, effAddr s k.val < Config.memSize := fun k hk =>
  Nat.lt_of_le_of_lt (Nat.add_le_add_left ((mem_regsUpTo x k).1 hk) s.I.toNat) h

theorem completes_drawEffect (p : Config.EdgePolicy) (x y : Reg) (n : Nat) (s : State) :
    Completes s (drawEffect p x y n s) := by
  rw [drawEffect_eq]
  exact completes_of_same_stack rfl rfl id rfl rfl .next

theorem execReturn_ends (s : State) : EndsIn .ret s (exec .ret s) := by
  rcases sp_eq_zero_or_succ s with h | ⟨k, h⟩
  · rw [exec_ret_of_empty s h]; exact endsIn_raised _ (by decide)
  · rw [exec_ret_of_saved s k h]
    refine endsIn_completed ⟨rfl, rfl, id, fun j hj => .inl ⟨?_, rfl⟩, .resume k (by omega)⟩
    have : j.val < k.val := hj
    omega

theorem execCall_ends (a : Addr12) (s : State) : EndsIn (.call a) s (exec (.call a) s) := by
  by_cases h : s.sp.val = 16
  · rw [exec_call_of_full a s h]; exact endsIn_raised _ (by decide)
  · have := s.sp.isLt
    obtain ⟨t, ht⟩ := exists_push_of_lt s s.pc (by omega)
    rw [exec_call_of_push a ht]
    obtain ⟨-, hsp, hent, heq⟩ := (push_some_iff s t s.pc).1 ht
    refine endsIn_completed ⟨?_, ?_, ?_, fun k hk => ?_, .target (zextNNN_le a)⟩
    · rw [heq]; rfl
    · rw [heq]; rfl
    · rw [heq]; exact id
    · have hk : k.val < t.sp.val := hk
      rw [State.setPc_entry, hent k]
      split
      · exact .inr rfl
      · exact .inl ⟨by omega, rfl⟩

theorem execDraw_ends (x y : Reg) (n : Nat) (s : State) : EndsIn (.draw x y n) s (exec (.draw x y n) s) := by
  show EndsIn _ s (execDrawUnder edgePolicy x y n s)
  unfold execDrawUnder
  split
  · exact endsIn_completed (completes_drawEffect ..)
  · exact endsIn_withinMemory fun _ => completes_drawEffect ..

theorem execBcdStore_ends (x : Reg) (s : State) : EndsIn (.bcdStore x) s (exec (.bcdStore x) s) :=
  endsIn_withinMemory fun hl => completes_of_same_stack rfl rfl (fun hm => storeDigits_wf s _ hm hl) rfl rfl .next

theorem execRegDump_ends (x : Reg) (s : State) : EndsIn (.regDump x) s (exec (.regDump x) s) := by
  refine endsIn_withinMemory fun hl => ?_
  have hwf : Memory.wf s.mem → Memory.wf (dumpRegs s (regsUpTo x)).mem :=
    fun hm => dumpRegs_wf _ s hm (effAddr_lt_of_mem_block hl)
  rw [dumpRegs_eq]
  exact completes_of_same_stack rfl rfl hwf rfl rfl .next

theorem execRegLoad_ends (x : Reg) (s : State) : EndsIn (.regLoad x) s (exec (.regLoad x) s) := by
  refine endsIn_withinMemory fun _ => ?_
  rw [loadRegs_eq]
  exact completes_of_same_stack rfl rfl id rfl rfl .next

theorem execSkipKey_ends (x : Reg) (s : State) : EndsIn (.skipKey x) s (exec (.skipKey x) s) := by
  rcases namesKey_or_not (s.reg x) with ⟨k, h⟩ | h
  · rw [exec_skipKey_of_key x s h]; exact endsIn_completed (completes_skipIf _)
  · rw [exec_skipKey_of_no_key x s h]; exact endsIn_raised _ (by decide)

theorem execSkipNkey_ends (x : Reg) (s : State) : EndsIn (.skipNkey x) s (exec (.skipNkey x) s) := by
  rcases namesKey_or_not (s.reg x) with ⟨k, h⟩ | h
  · rw [exec_skipNkey_of_key x s h]; exact endsIn_completed (completes_skipIf _)
  · rw [exec_skipNkey_of_no_key x s h]; exact endsIn_raised _ (by decide)

theorem execWaitKey_ends (x : Reg) (s : State) : EndsIn (.waitKey x) s (exec (.waitKey x) s) := by
  cases h : selectKey s with
  | some k =>
    rw [exec_waitKey_of_pressed x s h]
    exact endsIn_completed (completes_of_same_stack rfl rfl id rfl rfl .next)
  | none =>
    rw [exec_waitKey_of_none x s h]
    exact ⟨_, rfl, .waits x rfl h⟩

/-- Every instruction ends in one of the three ways. -/
theorem exec_endsIn (i : Instr) (s : State) : EndsIn i s (exec i s) := by
  cases i with
  | ret => exact execReturn_ends s
  | call a => exact execCall_ends a s
  | draw x y n => exact execDraw_ends x y n s
  | bcdStore x => exact execBcdStore_ends x s
  | regDump x => exact execRegDump_ends x s
  | regLoad x => exact execRegLoad_ends x s
  | skipKey x => exact execSkipKey_ends x s
  | skipNkey x => exact execSkipNkey_ends x s
  | waitKey x => exact execWaitKey_ends x s
  | jump a => exact endsIn_completed (completes_setPc (zextNNN_le a))
  | jumpOffset a => exact endsIn_completed (completes_setPc (jumpOffset_target_le _ a))
  | skipEqImm | skipNeImm | skipEqReg | skipNeReg => exact endsIn_completed (completes_skipIf _)
  | clearScreen | loadImm | addImm | assign | or | and | xor | add | sub | shr | subn | shl | rand | loadAddr | addAddr
  | fontAddr | getDelay | setDelay | setSound =>
    exact endsIn_completed (completes_of_same_stack rfl rfl id rfl rfl .next)

theorem ends_of_exec {i : Instr} {s t : State} (h : exec i s = .next t) : Ends i s t := by
  obtain ⟨t', e, hends⟩ := exec_endsIn i s
  rw [h] at e
  cases e
  exact hends

end Sys2Proof.Machine
end

section
/-! PROOFS. The invariant of the machine is kept by fault entry, by waiting, by completion, by every step and by every host
operation (10_state.md R50, R53, 60_exceptions.md R604, R631). -/

namespace Sys2Proof

open Machine

/-- The invariant speaks of memory, the record, `status`, `pc` and the stack alone. -/
theorem Inv.of_same {s t : State} (h : Inv s) (hm : Memory.wf t.mem) (hf : t.fault = s.fault) (hst : t.status = s.status)
    (hpc : t.pc = s.pc) (hsp : t.sp = s.sp) (hstack : t.stack = s.stack) : Inv t where
  memory := hm
  record := by rw [hf, hst]; exact h.record
  counter := by rw [hpc]; exact h.counter
  saved := fun k hk => by rw [State.entry, hstack]; exact h.saved k (hsp ▸ hk)
  waiting := fun r hr => by rw [hpc]; exact h.waiting r (hst ▸ hr)
  named := fun f hf' => by rw [hpc]; exact h.named f (hf ▸ hf')

theorem Inv.setCur {s : State} (h : Inv s) (w : Word) : Inv (s.setCur w) := h.of_same h.memory rfl rfl rfl rfl rfl

/-- Only a faulted machine has a record. -/
theorem Inv.fault_eq_none {s : State} (h : Inv s) (hst : s.status ≠ .faulted) : s.fault = none := by
  rw [← Option.not_isSome_iff_eq_none, h.record]
  exact hst

/-- Fault entry makes the record that `Faulted` asks for. -/
theorem Inv.enterFault {s : State} (h : Inv s) {k : Fault} {w : Option Word} (hk : k ≠ .romTooLarge)
    (hw : w = none → k = .outOfBounds ∧ s.pc.toNat + 1 ≥ Config.memSize) : Inv (s.enterFault k w) where
  memory := h.memory
  record := ⟨fun _ => rfl, fun _ => rfl⟩
  counter := h.counter
  saved := h.saved
  waiting := fun _ hr => nomatch hr
  named := fun f hf => by
    cases hf
    exact ⟨rfl, hk, hw⟩

theorem Inv.raise {s : State} (h : Inv s) {k : Fault} (hk : k ≠ .romTooLarge) : Inv (s.raise k) :=
  h.enterFault hk fun hw => nomatch hw

/-- A machine that starts or goes on to wait at a fetched instruction. -/
theorem Inv.setStatus {s : State} (h : Inv s) (hst : s.status ≠ .faulted) (hpc : s.pc.toNat ≤ 0xFFE) {v : Status}
    (hv : v ≠ .faulted) : Inv (s.setStatus v) where
  memory := h.memory
  record := by
    have hnone := h.fault_eq_none hst
    simp [hnone, hv]
  counter := h.counter
  saved := h.saved
  waiting := fun _ _ => hpc
  named := h.named

theorem Machine.Successor.toNat_le {s : State} {v : Word} (h : Successor s v) (hpc : s.pc.toNat ≤ 0xFFE)
    (hsaved : ∀ k : Fin 16, k.val < s.sp.val → (s.entry k).toNat ≤ 0xFFE) : v.toNat ≤ 0x1100 := by
  cases h with
  | next => simp only [BitVec.toNat_add, BitVec.reduceToNat]; omega
  | skip => simp only [BitVec.toNat_add, BitVec.reduceToNat]; omega
  | target hv => exact hv
  | resume k hk =>
    have := hsaved k hk
    simp only [BitVec.toNat_add, BitVec.reduceToNat]; omega

/-- An instruction completed by a running machine: no record, no wait, and every address it leaves is in bounds. -/
theorem Inv.of_completes {s t : State} (hinv : Inv s) (hrun : s.status = .running) (hpc : s.pc.toNat ≤ 0xFFE)
    (h : Completes s t) : Inv t where
  memory := h.memory hinv.memory
  record := by rw [h.fault, h.status]; exact hinv.record
  counter := h.counter.toNat_le hpc hinv.saved
  saved := fun k hk => by
    rcases h.saved k hk with ⟨hk', he⟩ | he <;> rw [he]
    · exact hinv.saved k hk'
    · exact hpc
  waiting := fun r hr => by rw [h.status, hrun] at hr; cases hr
  named := fun f hf => by
    rw [h.fault, hinv.fault_eq_none (by rw [hrun]; decide)] at hf
    cases hf

theorem Inv.of_ends {i : Instr} {s t : State} (hinv : Inv s) (hrun : s.status = .running) (hpc : s.pc.toNat ≤ 0xFFE)
    (h : Ends i s t) : Inv t := by
  cases h with
  | raised k hk => exact hinv.raise hk
  | waits x hi hk => exact hinv.setStatus (by rw [hrun]; decide) hpc (fun e => nomatch e)
  | completed hc => exact hinv.of_completes hrun hpc hc

/-- A poll resumes past the `wait-key` or changes nothing. -/
theorem Inv.waitPoll {s : State} (h : Inv s) {r : Reg} (hst : s.status = .awaitingKey r) : Inv (waitPoll r s) := by
  have hpc := h.waiting r hst
  rcases waitPoll_cases r s with ⟨k, -, e⟩ | ⟨-, e⟩ <;> rw [e]
  · have hrunning : Inv (s.setStatus .running) :=
      h.setStatus (by rw [hst]; exact fun e => nomatch e) hpc (by decide)
    exact hrunning.of_completes rfl hpc (completes_of_same_stack rfl rfl id rfl rfl .next)
  · exact h

theorem fetched_pc_le {s : State} {w : Word} (h : s.fetchWord = some w) : s.pc.toNat ≤ 0xFFE := by
  have := fetchWord_lt s w h
  omega

/-- Settles O18, over the ways a step can come to its next state: fault entry, a poll, or the end of an instruction that was
fetched at an address of at most 0xFFE. -/
theorem stepKeepsInvariant : Obligations.StepKeepsInvariant := by
  intro s t hinv h
  rcases step_cases s t h with ⟨-, rfl⟩ | ⟨r, hs, rfl⟩ | ⟨-, hfetch, rfl⟩ | ⟨-, w, -, -, rfl⟩ | ⟨hs, w, i, hw, -, he⟩
  · exact hinv
  · exact hinv.waitPoll hs
  · exact hinv.enterFault (by decide) fun _ => ⟨rfl, (fetchWord_none_iff s).1 hfetch⟩
  · exact (hinv.setCur w).raise (by decide)
  · exact (hinv.setCur w).of_ends hs (fetched_pc_le hw) (ends_of_exec he)

/-- Settles O20: each clause is read off the reset values. -/
theorem resetMeetsInvariant : Obligations.ResetMeetsInvariant where
  memory := Memory.reset_wf
  record := by decide
  counter := by decide
  saved := fun _ hk => absurd hk (Nat.not_lt_zero _)
  waiting := fun _ hr => nomatch hr
  named := fun _ hf => nomatch hf

theorem Inv.loadRom {s : State} (h : Inv s) (rom : List Byte) : Inv (loadRom rom s).1 := by
  have hwf := loadRom_wf rom s h.memory
  rcases loadRom_cases rom s with ⟨-, e⟩ | ⟨-, e⟩ <;> rw [e] at hwf ⊢
  · exact h.of_same hwf rfl rfl rfl rfl rfl
  · exact h

theorem hostOp_loadRom_state (rom : List Byte) (s : State) : (hostOp (.loadRom rom) s).1 = (loadRom rom s).1 := by
  rcases loadRom_cases rom s with ⟨-, e⟩ | ⟨-, e⟩ <;> simp [hostOp, e]

/-- Settles O19: only `load_rom` and `reset` touch an item of the invariant. -/
theorem hostOperationKeepsInvariant : Obligations.HostOperationKeepsInvariant := by
  intro s op h
  cases op with
  | loadRom rom => rw [hostOp_loadRom_state]; exact h.loadRom rom
  | reset => exact resetMeetsInvariant.of_same resetMeetsInvariant.memory rfl rfl rfl rfl rfl
  | tickTimers | setKey | clearRedraw => exact h.of_same h.memory rfl rfl rfl rfl rfl
  | readDisplay | readRedraw | readTimers | soundOn | readStatus => exact h

end Sys2Proof
end

section
/-! PROOFS. The step, branch by branch (30_encoding.md R101, R102, R130), and the statements about one step. -/

namespace Sys2Proof.Machine

/-! ## One equation a branch of the step -/

section
variable {s : State}

theorem step_of_faulted (h : s.status = .faulted) : step s = .next s := by
  simp only [step, stepWith, h]

theorem step_of_awaiting {r : Reg} (h : s.status = .awaitingKey r) : step s = .next (waitPoll r s) := by
  simp only [step, stepWith, h]

theorem step_of_no_fetch (h : s.status = .running) (hw : s.fetchWord = none) :
    step s = .next (s.enterFault .outOfBounds none) := by
  simp only [step, stepWith, h, hw]

theorem step_of_illegal (h : s.status = .running) {w : Word} (hw : s.fetchWord = some w) {e : DecodeError}
    (he : decodeWord w = .error e) : step s = .next ((s.setCur w).raise .decodeFault) := by
  simp only [step, stepWith, h, hw, runWord, he]

theorem step_of_decoded (h : s.status = .running) {w : Word} (hw : s.fetchWord = some w) {i : Instr}
    (hi : decodeWord w = .ok i) : step s = exec i (s.setCur w) := by
  simp only [step, stepWith, h, hw, runWord, hi]

end

/-- A running machine comes to its next state by a fault of the fetch, by a fault of the decoder, or by the end of the
instruction it has fetched. -/
theorem step_cases_of_running {s t : State} (hs : s.status = .running) (h : step s = .next t) :
    (s.fetchWord = none ∧ t = s.enterFault .outOfBounds none) ∨
    (∃ w, s.fetchWord = some w ∧ t = (s.setCur w).raise .decodeFault) ∨
    ∃ w i, s.fetchWord = some w ∧ decodeWord w = .ok i ∧ Ends i (s.setCur w) t := by
  rcases step_cases s t h with ⟨hs', -⟩ | ⟨r, hs', -⟩ | ⟨-, hw, ht⟩ | ⟨-, w, hw, -, ht⟩ | ⟨-, w, i, hw, hi, he⟩
  · exact nomatch hs.symm.trans hs'
  · exact nomatch hs.symm.trans hs'
  · exact .inl ⟨hw, ht⟩
  · exact .inr (.inl ⟨w, hw, ht⟩)
  · exact .inr (.inr ⟨w, i, hw, hi, ends_of_exec he⟩)

theorem decodeWord_of_decodeBytes {hi lo : Byte} {i : Instr} {rest rest' : List Byte}
    (h : decodeBytes (hi :: lo :: rest) = .ok (i, rest')) : decodeWord (wordOfBytes hi lo) = .ok i := by
  simp only [decodeBytes] at h
  split at h
  · next j hj => cases h; exact hj
  · cases h

/-- Settles O6: the fetch puts the two bytes together big-endian. -/
theorem stepRunsDecodedInstruction : Obligations.StepRunsDecodedInstruction := by
  intro s i hs hpc hdec
  exact ⟨_, wordOfBytes_toNat _ _, step_of_decoded hs (fetchWord_of_lt s hpc) (decodeWord_of_decodeBytes hdec)⟩

/-- Settles O7: the fetch bound fails before any word is read. -/
theorem fetchPastEndFaults : Obligations.FetchPastEndFaults := by
  intro s hs hpc
  exact ⟨_, step_of_no_fetch hs ((fetchWord_none_iff s).2 hpc), enterFault_takes s _ _⟩

/-- Settles O8: the rejected word is in `cur` when the fault is raised. -/
theorem illegalWordFaults : Obligations.IllegalWordFaults := by
  intro s w hs hw hill
  exact ⟨_, step_of_illegal hs hw hill, rfl, raise_takes (s.setCur w) _⟩

/-- Settles O9: a running machine comes to `Faulted` by the fetch bound, by an illegal word, or by an instruction that ended
in a fault; each is one fault entry. -/
theorem faultEntryIsAtomic : Obligations.FaultEntryIsAtomic := by
  intro s t hs h ht
  have raised (w : Word) (k : Fault) : OnlyChanges (· ∈ [Item.status, .fault, .cur]) s ((s.setCur w).raise k) :=
    (OnlyChanges.setCur w (by simp)).trans (OnlyChanges.raise k (by simp) (by simp))
  rcases step_cases_of_running hs h with ⟨hw, rfl⟩ | ⟨w, hw, rfl⟩ | ⟨w, i, hw, -, hends⟩
  · exact ⟨OnlyChanges.enterFault _ _ (by simp) (by simp), _, rfl, rfl, nofun, hw.symm⟩
  · exact ⟨raised w _, _, rfl, rfl, nofun, hw.symm⟩
  · cases hends with
    | raised k hk => exact ⟨raised w k, _, rfl, rfl, hk, hw.symm⟩
    | waits x hi hk => cases ht
    | completed hc => exact nomatch ht.symm.trans (hc.status.trans hs)

theorem hostOp_loadRom_status_fault (rom : List Byte) (s : State) :
    (hostOp (.loadRom rom) s).1.status = s.status ∧ (hostOp (.loadRom rom) s).1.fault = s.fault := by
  rw [hostOp_loadRom_state]
  rcases loadRom_cases rom s with ⟨-, e⟩ | ⟨-, e⟩ <;> rw [e] <;> exact ⟨rfl, rfl⟩

/-- Settles O10: the step looks at `status` first, and of the host operations only `reset` writes `status` or the record. -/
theorem faultIsSticky : Obligations.FaultIsSticky := by
  refine ⟨fun s h => step_of_faulted h, fun s op h hop => ?_⟩
  cases op with
  | reset => exact absurd rfl hop
  | loadRom rom =>
    obtain ⟨hst, hf⟩ := hostOp_loadRom_status_fault rom s
    exact ⟨hst.trans h, hf⟩
  | tickTimers | setKey | clearRedraw | readDisplay | readRedraw | readTimers | soundOn | readStatus => exact ⟨h, rfl⟩

/-! ## Which instructions may write the stack and the display (10_state.md R41, R42, R45) -/

theorem mayWrite_sp_iff (i : Instr) (s : State) : MayWrite i s .sp ↔ i = .ret ∨ ∃ a, i = .call a := by
  cases i <;> simp [MayWrite, FaultItem, ByteAtI]

theorem call_of_mayWrite_entry {i : Instr} {s : State} {k : Fin 16} (h : MayWrite i s (.entry k)) : ∃ a, i = .call a := by
  cases i <;> simp [MayWrite, FaultItem, ByteAtI] at h ⊢

theorem mayWrite_pixel_iff (i : Instr) (s : State) (c : Col) (r : Row) :
    MayWrite i s (.pixel c r) ↔ i = .clearScreen ∨ ∃ x y n, i = .draw x y n := by
  cases i <;> simp [MayWrite, FaultItem, ByteAtI]

/-- Settles O13: a changed item was changed by the executed instruction, and the tables of what an instruction may write
name `sp`, the entries and the pixels for these instructions alone. -/
theorem stackAndDisplayWriters : Obligations.StackAndDisplayWriters := by
  intro s t h
  refine ⟨fun hsp => ?_, fun hstack => ?_, fun hfb => ?_⟩
  · obtain ⟨-, w, i, hw, hi, hmay⟩ := changed_by_instruction h (it := .sp) hsp (by simp) (by simp)
    exact ⟨w, i, hw, hi, (mayWrite_sp_iff i s).1 hmay⟩
  · obtain ⟨k, hk⟩ := not_forall.1 (mt (State.stack_ext s t) hstack)
    obtain ⟨-, w, i, hw, hi, hmay⟩ := changed_by_instruction h (it := .entry k) hk (by simp) (by simp)
    obtain ⟨a, rfl⟩ := call_of_mayWrite_entry hmay
    exact ⟨w, a, hw, hi⟩
  · obtain ⟨c, hc⟩ := not_forall.1 (mt (State.fb_ext s t) hfb)
    obtain ⟨r, hr⟩ := not_forall.1 hc
    obtain ⟨-, w, i, hw, hi, hmay⟩ := changed_by_instruction h (it := .pixel c r) hr (by simp) (by simp)
    exact ⟨w, i, hw, hi, (mayWrite_pixel_iff i s c r).1 hmay⟩

/-- Settles O14: the frame lemma of `exec`. -/
theorem execWritesOnlyItsItems : Obligations.ExecWritesOnlyItsItems :=
  fun _ _ _ h => exec_next_only h

/-- Settles O15: of all ways a running machine can come to its next state, only a `wait-key` without a pressed key leaves it
waiting. -/
theorem waitEnteredOnlyByWaitKey : Obligations.WaitEnteredOnlyByWaitKey := by
  intro s t r hs h ht
  rcases step_cases_of_running hs h with ⟨-, rfl⟩ | ⟨w, -, rfl⟩ | ⟨w, i, hw, hi, hends⟩
  · cases ht
  · cases ht
  · cases hends with
    | raised k hk => cases ht
    | waits x hix hk =>
      cases ht
      subst hix
      exact ⟨⟨w, hw, hi⟩, (selectKey_none_iff (s.setCur w)).1 hk,
        (OnlyChanges.setCur w (by simp)).trans (OnlyChanges.setStatus _ (by simp))⟩
    | completed hc => exact nomatch ht.symm.trans (hc.status.trans hs)

theorem waitPoll_of_pressed {s : State} {k : Key} (r : Reg) (h : selectKey s = some k) :
    waitPoll r s = (storeKey s r k).setStatus .running := by
  rw [waitPoll, h]

theorem waitPoll_of_none {s : State} (r : Reg) (h : selectKey s = none) : waitPoll r s = s := by
  rw [waitPoll, h]

theorem storeKey_reg_toNat (s : State) (r : Reg) (k : Key) : ((storeKey s r k).reg r).toNat = k.val := by
  rw [storeKey, State.advance_reg, State.setReg_reg_same, keyByte_toNat]

/-- Settles O16: a waiting step is one poll, which selects the lowest pressed key. -/
theorem waitingStepPolls : Obligations.WaitingStepPolls := by
  intro s r hs
  refine ⟨fun k hk hlow => ?_, fun hnone => ?_⟩
  · have hpoll := waitPoll_of_pressed r ((selectKey_some_iff s k).2 ⟨hk, hlow⟩)
    have honly := waitPoll_only r s
    rw [hpoll] at honly
    exact ⟨_, (step_of_awaiting hs).trans (congrArg _ hpoll), storeKey_reg_toNat s r k, rfl, rfl, honly⟩
  · rw [step_of_awaiting hs, waitPoll_of_none r ((selectKey_none_iff s).2 hnone)]

/-- Settles O17: the word is the `jump` to its own address, and `pc` is written with the value it holds. -/
theorem selfJumpChangesNothing : Obligations.SelfJumpChangesNothing := by
  intro s w hs hw hval
  have hpc := fetchWord_lt s w hw
  have hfamily : fieldF w = 0x1 := by rw [fieldF_eq]; omega
  have htarget : zextNNN (fieldNNN w) = s.pc := by
    refine BitVec.eq_of_toNat_eq ?_
    rw [zextNNN_toNat, fieldNNN_toNat]; omega
  rw [step_of_decoded hs hw (decodeWord_of_family_1 hfamily), exec_jump, htarget]
  rfl

end Sys2Proof.Machine
end

section
/-! PROOFS. Reset, ROM load and the other host operations (60_exceptions.md R620 to R632, 70_reset_and_hazards.md R700 to
R708). -/

namespace Sys2Proof.Machine

/-! ## Runs of bytes -/

theorem readByte_writeList_other (s : State) (bs : List Byte) (a b : Nat) (h : b < a ∨ a + bs.length ≤ b) :
    State.readByte { s with mem := Memory.writeList s.mem a bs } b = s.readByte b :=
  Memory.read_writeList_other bs s.mem a b h

theorem readByte_writeList_same (s : State) (bs : List Byte) (a k : Nat) (hm : Memory.wf s.mem)
    (ha : a + bs.length ≤ Config.memSize) (hk : k < bs.length) :
    State.readByte { s with mem := Memory.writeList s.mem a bs } (a + k) = bs[k] :=
  Memory.read_writeList_same bs s.mem a k hm ha hk

/-- A run of bytes changes the addresses it covers and nothing else. -/
theorem writeList_only (s : State) (bs : List Byte) (a : Nat) :
    OnlyChanges (fun it => ∃ k, k < bs.length ∧ it = .memByte (a + k)) s
      { s with mem := Memory.writeList s.mem a bs } := by
  intro it hn
  cases it with
  | memByte b =>
    refine readByte_writeList_other s bs a b ?_
    by_contra hin
    exact hn ⟨b - a, by omega, by congr 1; omega⟩
  | _ => rfl

/-! ## Reset -/

theorem reset_readByte (a : Nat) : State.reset.readByte a = resetByte a := rfl

theorem resetByte_of_lt {a : Nat} (h : a < 80) : resetByte a = font[a] := by
  simp [resetByte, h]

theorem resetByte_of_ge {a : Nat} (h : 80 ≤ a) : resetByte a = 0 := by
  simp [resetByte, h]

/-- Settles O21: memory with nothing listed reads as its reset contents, and every other item is a constant. -/
theorem resetValues : Obligations.ResetValues := by
  have hpixel : ∀ (c : Col) (r : Row), State.reset.pixel c r = false := State.clearPixels_pixel State.reset
  have hkey : ∀ k, State.reset.key k = false := by decide
  have hreg : ∀ k, State.reset.reg k = 0 := by decide
  have hentry : ∀ k, State.reset.entry k = 0 := by decide
  refine ⟨rfl, rfl, rfl, rfl, hpixel, hkey, fun a h => ?_, fun a h _ => ?_, hreg, rfl, hentry, rfl, rfl, rfl, rfl,
    fun s => ⟨_, rfl, rfl, fun it hn => ?_⟩⟩
  · rw [reset_readByte, resetByte_of_lt h]
  · rw [reset_readByte, resetByte_of_ge h]
  · cases it with
    | rngCalls => exact absurd rfl hn
    | _ => rfl

/-- Settles O22: the table is one run of 80 bytes at 0x000. -/
theorem resetInstallsFont : Obligations.ResetInstallsFont := by
  refine ⟨resetWith_font.symm, fun table => ?_⟩
  have hlen : table.toList.length = 80 := Vector.length_toList
  have hfit : 0 + table.toList.length ≤ Config.memSize := by rw [hlen]; decide
  refine ⟨Memory.writeList_wf _ _ _ Memory.reset_wf hfit, fun a h => ?_, ?_⟩
  · have hread := readByte_writeList_same State.reset table.toList 0 a Memory.reset_wf hfit (hlen.symm ▸ h)
    rw [Nat.zero_add, Vector.getElem_toList] at hread
    exact hread
  · refine (writeList_only State.reset table.toList 0).mono ?_
    rintro it ⟨k, hk, rfl⟩
    exact ⟨k, hlen ▸ hk, by rw [Nat.zero_add]⟩

/-! ## ROM load -/

/-- Settles O23: a ROM that fits is one run of bytes at 0x200. -/
theorem loadRomCopiesOrRejects : Obligations.LoadRomCopiesOrRejects := by
  intro s rom hm
  refine ⟨fun hlen => ?_, fun hlen => ?_⟩
  · have hfit : ¬ rom.length > Config.maxRom := Nat.not_lt.2 hlen
    refine ⟨{ s with mem := Memory.writeList s.mem 0x200 rom }, by simp [hostOp, loadRom, hfit], fun k hk => ?_,
      writeList_only s rom 0x200⟩
    exact readByte_writeList_same s rom 0x200 k hm (by simp only [Config.memSize]; omega) hk
  · have hlong : rom.length > Config.maxRom := hlen
    simp [hostOp, loadRom, hlong]

/-! ## Timers, keys and reads -/

/-- Settles O24: the two timers are counted down, one after the other. -/
theorem tickCountsDown : Obligations.TickCountsDown := by
  intro s
  exact ⟨_, rfl, countDown_toNat s.DT, countDown_toNat s.ST,
    (OnlyChanges.setDT _ (by simp)).trans (OnlyChanges.setST _ (by simp))⟩

/-- Settles O25: each operation is one write. -/
theorem keyAndRedrawWrites : Obligations.KeyAndRedrawWrites := by
  intro s
  refine ⟨fun k b => ?_, ?_⟩
  · exact ⟨_, rfl, State.setKey_key_same s k b, OnlyChanges.setKey k b (by simp)⟩
  · exact ⟨_, rfl, rfl, OnlyChanges.setRedraw false (by simp)⟩

/-- Lists of one length, joined: element `j` of list `i` stands at `i * n + j`. -/
theorem getElem?_flatMap_of_length {α β : Type} {f : α → List β} {n j : Nat} (hf : ∀ a, (f a).length = n) (hj : j < n)
    {l : List α} {i : Nat} {a : α} (ha : l[i]? = some a) : (l.flatMap f)[i * n + j]? = (f a)[j]? := by
  induction l generalizing i with
  | nil => simp at ha
  | cons b l ih =>
    rw [List.flatMap_cons]
    cases i with
    | zero =>
      cases ha
      rw [List.getElem?_append_left (by rw [hf]; omega), Nat.zero_mul, Nat.zero_add]
    | succ i =>
      have hsplit : (i + 1) * n + j = (f b).length + (i * n + j) := by rw [hf, Nat.succ_mul]; omega
      rw [hsplit, List.getElem?_append_right (Nat.le_add_right _ _), Nat.add_sub_cancel_left]
      exact ih (by simpa using ha)

theorem readDisplay_length (s : State) : (readDisplay s).length = 2048 := by
  simp [readDisplay, List.length_flatMap]

/-- The flat index of R624: row by row, 64 pixels a row. -/
theorem readDisplay_getElem? (s : State) (c : Col) (r : Row) :
    (readDisplay s)[r.val * 64 + c.val]? = some (if s.pixel c r then 1 else 0) := by
  rw [readDisplay, getElem?_flatMap_of_length (a := r) (fun _ => by simp) c.isLt (by simp)]
  simp

/-- Settles O26: every read answers its item beside the state it was given. -/
theorem readsAnswerWithoutChange : Obligations.ReadsAnswerWithoutChange := by
  intro s
  exact ⟨⟨_, rfl, readDisplay_length s, readDisplay_getElem? s⟩, rfl, rfl, ⟨_, rfl, decide_eq_true_iff⟩, rfl⟩

end Sys2Proof.Machine
end

section
/-! PROOFS. The statements about `return` and `call` of 40_control_flow.md (R203, R205). -/

namespace Sys2Proof.Machine

/-- Settles O27: the last entry is popped and keeps its value. -/
theorem returnPopsAndResumes : Obligations.ReturnPopsAndResumes := by
  refine ⟨encodes_ret, fun s k hsp => ?_, fun s hsp => ?_⟩
  · exact ⟨_, exec_ret_of_saved s k hsp, rfl, rfl,
      (pop_only (pop_of_succ s k hsp) (by simp)).trans (OnlyChanges.setPc _ (by simp))⟩
  · exact ⟨_, exec_ret_of_empty s hsp, raise_takes s _⟩

/-- Settles O29: the next free entry takes the address the instruction stands at. -/
theorem callPushesOwnAddress : Obligations.CallPushesOwnAddress := by
  refine ⟨encodes_call, fun a s k hsp => ?_, fun a s hsp => ?_⟩
  · obtain ⟨t, ht⟩ := exists_push_of_lt s s.pc (by omega)
    obtain ⟨-, hspt, hent, -⟩ := (push_some_iff s t s.pc).1 ht
    have hframe : OnlyChanges (· ∈ [.pc, .sp, .entry k]) s t :=
      push_only ht (by simp) fun j hj => by
        have hjk : j = k := Fin.ext (hj.trans hsp)
        simp [hjk]
    refine ⟨_, exec_call_of_push a ht, ?_, hspt.trans (congrArg (· + 1) hsp), zextNNN_toNat a,
      hframe.trans (OnlyChanges.setPc _ (by simp))⟩
    rw [State.setPc_entry, hent k, if_pos hsp.symm]
  · exact ⟨_, exec_call_of_full a s hsp, raise_takes s _⟩

/-- Settles O31: the `return` pops the entry the `call` has filled, which holds the address of the `call`. -/
theorem callThenReturnResumes : Obligations.CallThenReturnResumes := by
  intro a s t v hsp hcall
  obtain ⟨m, hm⟩ := exists_push_of_lt s s.pc hsp
  obtain ⟨-, hspm, hent, -⟩ := (push_some_iff s m s.pc).1 hm
  rw [exec_call_of_push a hm] at hcall
  cases hcall
  refine ⟨_, exec_ret_of_saved ((m.setPc (zextNNN a)).setPc v) ⟨s.sp.val, hsp⟩ hspm, ?_, rfl, fun k hk => ?_⟩
  · show m.entry _ + 2 = _
    rw [hent, if_pos rfl]
  · show m.entry k = _
    rw [hent, if_neg (Nat.ne_of_lt hk)]

end Sys2Proof.Machine
end

section
/-! PROOFS. The statement about the skips on keys of 41_skip.md (R255, R256). -/

namespace Sys2Proof.Machine

theorem skipIf_not_pc (b : Bool) (s : State) : (s.skipIf (!b)).pc = if b = true then s.pc + 2 else s.pc + 4 := by
  cases b <;> rfl

/-- Settles O34: a register of at most 15 names a key and the skip is one conditional write of `pc`; above 15 both fault. -/
theorem skipsOnKeys : Obligations.SkipsOnKeys := by
  refine ⟨encodes_skipKey, encodes_skipNkey, fun x s k hk => ⟨?_, ?_⟩, fun x s h => ⟨?_, ?_⟩⟩
  · exact ⟨_, exec_skipKey_of_key x s hk, State.skipIf_pc s _, skipIf_only_pc _ s⟩
  · exact ⟨_, exec_skipNkey_of_key x s hk, skipIf_not_pc _ s, skipIf_only_pc _ s⟩
  · exact ⟨_, exec_skipKey_of_no_key x s h, raise_takes s _⟩
  · exact ⟨_, exec_skipNkey_of_no_key x s h, raise_takes s _⟩

end Sys2Proof.Machine
end

section
/-! PROOFS. The statements about the flag-writing ALU operations and `rand` of 42_alu.md (R309 to R315): each arithmetic
operation is one `writeThenFlag`, each shift one `flagThenShift`, `rand` one `writeResult` and a count. -/

namespace Sys2Proof.Machine

theorem exec_add (x y : Reg) (s : State) :
    exec (.add x y) s = .next (writeThenFlag s x (s.reg x + s.reg y) (carry (s.reg x) (s.reg y))) := rfl

theorem exec_sub (x y : Reg) (s : State) :
    exec (.sub x y) s = .next (writeThenFlag s x (s.reg x - s.reg y) (noBorrow (s.reg x) (s.reg y))) := rfl

theorem exec_subn (x y : Reg) (s : State) :
    exec (.subn x y) s = .next (writeThenFlag s x (s.reg y - s.reg x) (noBorrow (s.reg y) (s.reg x))) := rfl

theorem exec_shr (x y : Reg) (s : State) :
    exec (.shr x y) s = .next (flagThenShift s x (lowBit (s.reg x)) (fun v => v >>> 1)) := rfl

theorem exec_shl (x y : Reg) (s : State) :
    exec (.shl x y) s = .next (flagThenShift s x (highBit (s.reg x)) (fun v => v <<< 1)) := rfl

theorem exec_rand (x : Reg) (nn : Byte) (s : State) :
    exec (.rand x nn) s = .next (writeResult s x (Config.randomByte s.rngCalls &&& nn)).countRng := rfl

section
variable (s : State) (x : Reg) (v f : Byte) (op : Byte → Byte)

/-- The flag is written last (R301). -/
@[simp] theorem writeThenFlag_reg_VF : (writeThenFlag s x v f).reg VF = f := by
  rw [writeThenFlag_reg, if_pos rfl]

theorem writeThenFlag_reg_same (h : x ≠ VF) : (writeThenFlag s x v f).reg x = v := by
  rw [writeThenFlag_reg, if_neg h, if_pos rfl]

theorem flagThenShift_reg_same (h : x ≠ VF) : (flagThenShift s x f op).reg x = op (s.reg x) := by
  rw [flagThenShift_reg, if_pos rfl, if_neg h]

theorem flagThenShift_reg_VF_other (h : x ≠ VF) : (flagThenShift s x f op).reg VF = f := by
  rw [flagThenShift_reg, if_neg h.symm, if_pos rfl]

/-- With X = 0xF the flag is written first and then shifted (R301). -/
theorem flagThenShift_reg_VF : (flagThenShift s VF f op).reg VF = op f := by
  rw [flagThenShift_reg, if_pos rfl, if_pos rfl]

theorem writeThenFlag_only_items : OnlyChanges (· ∈ [.reg x, .reg VF, .pc]) s (writeThenFlag s x v f) :=
  writeThenFlag_only x v f (by simp) (by simp) (by simp)

theorem flagThenShift_only_items : OnlyChanges (· ∈ [.reg x, .reg VF, .pc]) s (flagThenShift s x f op) :=
  flagThenShift_only x f op (by simp) (by simp) (by simp)

end

/-- A difference of bytes, modulo 256. -/
theorem sub_toNat (a b : Byte) : (a - b).toNat = (a.toNat + 256 - b.toNat) % 256 := by
  have := b.isLt
  rw [BitVec.toNat_sub]
  congr 1
  omega

theorem shiftRight_one_toNat (a : Byte) : (a >>> 1).toNat = a.toNat / 2 := by
  rw [BitVec.toNat_ushiftRight, Nat.shiftRight_eq_div_pow, Nat.pow_one]

theorem shiftLeft_one_toNat (a : Byte) : (a <<< 1).toNat = a.toNat * 2 % 256 := by
  rw [BitVec.toNat_shiftLeft, Nat.shiftLeft_eq, Nat.pow_one]

theorem lowBit_shiftRight_toNat (a : Byte) : (lowBit a >>> 1).toNat = 0 := by
  rw [shiftRight_one_toNat, lowBit_toNat]
  omega

theorem highBit_shiftLeft_toNat (a : Byte) : (highBit a <<< 1).toNat = if a.toNat ≥ 128 then 2 else 0 := by
  have := a.isLt
  rw [shiftLeft_one_toNat, highBit_toNat]
  split <;> omega

/-- Settles O38: sum and carry are computed from the old operands, and the carry is written last. -/
theorem addSetsCarry : Obligations.AddSetsCarry := by
  refine ⟨encodes_add, fun x y s => ⟨_, exec_add x y s, fun hx => ?_, ?_, rfl, writeThenFlag_only_items s x _ _⟩⟩
  · rw [writeThenFlag_reg_same s x _ _ hx, BitVec.toNat_add]
  · rw [writeThenFlag_reg_VF, carry_toNat]

/-- What one subtraction answers, whichever operand is the minuend. -/
theorem writeThenFlag_sub (s : State) (x : Reg) (a b : Byte) :
    (x ≠ VF → ((writeThenFlag s x (a - b) (noBorrow a b)).reg x).toNat = (a.toNat + 256 - b.toNat) % 256) ∧
    ((writeThenFlag s x (a - b) (noBorrow a b)).reg VF).toNat = (if a.toNat ≥ b.toNat then 1 else 0) := by
  refine ⟨fun hx => ?_, ?_⟩
  · rw [writeThenFlag_reg_same s x _ _ hx, sub_toNat]
  · rw [writeThenFlag_reg_VF, noBorrow_toNat]

/-- Settles O39: the two subtractions are one with the operands exchanged. -/
theorem subtractionsSetNoBorrow : Obligations.SubtractionsSetNoBorrow := by
  refine ⟨encodes_sub, encodes_subn, fun x y s => ⟨?_, ?_⟩⟩
  · obtain ⟨hval, hflag⟩ := writeThenFlag_sub s x (s.reg x) (s.reg y)
    exact ⟨_, exec_sub x y s, hval, hflag, rfl, writeThenFlag_only_items s x _ _⟩
  · obtain ⟨hval, hflag⟩ := writeThenFlag_sub s x (s.reg y) (s.reg x)
    exact ⟨_, exec_subn x y s, hval, hflag, rfl, writeThenFlag_only_items s x _ _⟩

/-- Settles O40: with X other than F the shift reads the old register, with X = F the flag just written. -/
theorem shiftsMoveOneBit : Obligations.ShiftsMoveOneBit := by
  refine ⟨encodes_shr, encodes_shl, fun x y s => ⟨?_, ?_⟩⟩
  · refine ⟨_, exec_shr x y s, fun hx => ⟨?_, ?_⟩, ?_, rfl, flagThenShift_only_items s x _ _⟩
    · rw [flagThenShift_reg_same s x _ _ hx, shiftRight_one_toNat]
    · rw [flagThenShift_reg_VF_other s x _ _ hx, lowBit_toNat]
    · rintro rfl
      rw [flagThenShift_reg_VF, lowBit_shiftRight_toNat]
  · refine ⟨_, exec_shl x y s, fun hx => ⟨?_, ?_⟩, ?_, rfl, flagThenShift_only_items s x _ _⟩
    · rw [flagThenShift_reg_same s x _ _ hx, shiftLeft_one_toNat]
    · rw [flagThenShift_reg_VF_other s x _ _ hx, highBit_toNat]
    · rintro rfl
      rw [flagThenShift_reg_VF, highBit_shiftLeft_toNat]

/-- Settles O41: whatever the oracle answers, the mask is applied bit by bit. -/
theorem randMasksOracleAnswer : Obligations.RandMasksOracleAnswer := by
  refine ⟨encodes_rand, fun x nn s => ⟨_, exec_rand x nn s, fun k => ?_, rfl, rfl, ?_⟩⟩
  · rw [State.countRng_reg, writeResult_reg_same, BitVec.getLsbD_and]
  · exact (writeResult_only x _ (by simp) (by simp)).trans (OnlyChanges.countRng (by simp))

end Sys2Proof.Machine
end

section
/-! PROOFS. The statement about `wait-key` of 44_timers_keys.md (R455, R457). -/

namespace Sys2Proof.Machine

/-- Settles O50: the selected key is the lowest pressed one, and without one `status` alone is written. -/
theorem waitKeyStoresLowestOrWaits : Obligations.WaitKeyStoresLowestOrWaits := by
  refine ⟨encodes_waitKey, fun x s k hk hlow => ?_, fun x s hnone => ?_⟩
  · exact ⟨_, exec_waitKey_of_pressed x s ((selectKey_some_iff s k).2 ⟨hk, hlow⟩), storeKey_reg_toNat s x k, rfl,
      writeResult_only_reg_pc s x _⟩
  · exact ⟨_, exec_waitKey_of_none x s ((selectKey_none_iff s).2 hnone), rfl, OnlyChanges.setStatus _ (by simp)⟩

end Sys2Proof.Machine
end

section
/-! PROOFS. The statements about the instructions of 43_index_memory.md that move bytes through `I` (R404 to R406). -/

namespace Sys2Proof.Machine

theorem exec_bcdStore (x : Reg) (s : State) :
    exec (.bcdStore x) s = withinMemory (effAddr s 2) s (storeDigits s (s.reg x)).advance := rfl

theorem exec_regDump (x : Reg) (s : State) :
    exec (.regDump x) s = withinMemory (effAddr s x.val) s (bumpI (dumpRegs s (regsUpTo x)) x).advance := rfl

theorem exec_regLoad (x : Reg) (s : State) :
    exec (.regLoad x) s = withinMemory (effAddr s x.val) s (bumpI (loadRegs s (regsUpTo x)) x).advance := rfl

/-! ## The digits of `bcd-store` -/

theorem hundreds_toNat (v : Byte) : (hundreds v).toNat = v.toNat / 100 := by
  have := v.isLt
  simp only [hundreds, BitVec.toNat_ofNat]; omega

theorem tens_toNat (v : Byte) : (tens v).toNat = v.toNat / 10 % 10 := by
  simp only [tens, BitVec.toNat_ofNat]; omega

theorem units_toNat (v : Byte) : (units v).toNat = v.toNat % 10 := by
  simp only [units, BitVec.toNat_ofNat]; omega

theorem effAddr_ne (s : State) {j k : Nat} (h : j ≠ k) : effAddr s j ≠ effAddr s k :=
  fun e => h (Nat.add_left_cancel e)

/-- The three stores are at three addresses, so each digit reads back. -/
theorem storeDigits_readByte (s : State) (v : Byte) (hm : Memory.wf s.mem) (h : effAddr s 2 < Config.memSize) :
    (storeDigits s v).readByte (effAddr s 0) = hundreds v ∧ (storeDigits s v).readByte (effAddr s 1) = tens v ∧
      (storeDigits s v).readByte (effAddr s 2) = units v := by
  have hlt (k : Nat) (hk : k ≤ 2) : effAddr s k < Config.memSize :=
    Nat.lt_of_le_of_lt (Nat.add_le_add_left hk s.I.toNat) h
  have hm0 := State.writeByte_wf s _ (hundreds v) hm (hlt 0 (by decide))
  have hm1 := State.writeByte_wf _ _ (tens v) hm0 (hlt 1 (by decide))
  refine ⟨?_, ?_, State.writeByte_readByte_same _ _ _ hm1⟩
  · rw [storeDigits, State.writeByte_readByte_other _ _ _ _ (effAddr_ne s (by decide)),
      State.writeByte_readByte_other _ _ _ _ (effAddr_ne s (by decide)), State.writeByte_readByte_same s _ _ hm]
  · rw [storeDigits, State.writeByte_readByte_other _ _ _ _ (effAddr_ne s (by decide)),
      State.writeByte_readByte_same _ _ _ hm0]

/-- Settles O44: within memory the digits are at three distinct addresses; past its end the bound check faults first. -/
theorem bcdStoresDigits : Obligations.BcdStoresDigits := by
  refine ⟨encodes_bcdStore, fun x s hm h => ?_, fun x s h => ?_⟩
  · obtain ⟨h0, h1, h2⟩ := storeDigits_readByte s (s.reg x) hm h
    refine ⟨_, (exec_bcdStore x s).trans (withinMemory_of_lt _ _ _ h), ?_, ?_, ?_, rfl,
      (storeDigits_only _ s _ fun k hk => .inr ⟨k, hk, rfl⟩).trans (OnlyChanges.advance (.inl rfl))⟩
    · rw [State.advance_readByte, h0, hundreds_toNat]
    · rw [State.advance_readByte, h1, tens_toNat]
    · rw [State.advance_readByte, h2, units_toNat]
  · exact ⟨_, (exec_bcdStore x s).trans (withinMemory_of_ge _ _ _ h), raise_takes s _⟩

/-! ## The register blocks -/

@[simp] theorem dumpRegs_I (s : State) (ks : List Reg) : (dumpRegs s ks).I = s.I := by rw [dumpRegs_eq]

@[simp] theorem dumpRegs_pc (s : State) (ks : List Reg) : (dumpRegs s ks).pc = s.pc := by rw [dumpRegs_eq]

@[simp] theorem loadRegs_I (s : State) (ks : List Reg) : (loadRegs s ks).I = s.I := by rw [loadRegs_eq]

@[simp] theorem loadRegs_pc (s : State) (ks : List Reg) : (loadRegs s ks).pc = s.pc := by rw [loadRegs_eq]

@[simp] theorem bumpI_pc (s : State) (x : Reg) : (bumpI s x).pc = s.pc := rfl

@[simp] theorem bumpI_reg (s : State) (x k : Reg) : (bumpI s x).reg k = s.reg k := rfl

@[simp] theorem bumpI_readByte (s : State) (x : Reg) (a : Nat) : (bumpI s x).readByte a = s.readByte a := rfl

/-- A stored block reads back, register by register. -/
theorem dumpRegs_block_readByte {s : State} {x k : Reg} (hm : Memory.wf s.mem) (h : effAddr s x.val < Config.memSize)
    (hk : k ≤ x) : (dumpRegs s (regsUpTo x)).readByte (effAddr s k.val) = s.reg k :=
  dumpRegs_readByte _ s k hm (effAddr_lt_of_mem_block h) ((mem_regsUpTo x k).2 hk)

/-- A loaded block is what memory held, register by register. -/
theorem loadRegs_block_reg {s : State} {x k : Reg} (hk : k ≤ x) :
    (loadRegs s (regsUpTo x)).reg k = s.readByte (effAddr s k.val) := by
  rw [loadRegs_reg, if_pos ((mem_regsUpTo x k).2 hk)]

/-- Settles O45: the loop stores the block at distinct addresses, then `I` moves past it. -/
theorem regDumpStoresBlock : Obligations.RegDumpStoresBlock := by
  refine ⟨encodes_regDump, fun x s hm h => ?_, fun x s h => ?_⟩
  · refine ⟨_, (exec_regDump x s).trans (withinMemory_of_lt _ _ _ h), fun k hk => ?_, ?_, ?_, ?_⟩
    · rw [State.advance_readByte, bumpI_readByte, dumpRegs_block_readByte hm h hk]
    · rw [State.advance_I, bumpI_toNat, dumpRegs_I]
    · rw [State.advance_pc, bumpI_pc, dumpRegs_pc]
    · have hblock := dumpRegs_only (fun it => it = .pc ∨ it = .I ∨ ByteAtI s (x.val + 1) it) (regsUpTo x) s
        fun k hk => .inr (.inr ⟨k.val, Nat.lt_succ_of_le ((mem_regsUpTo x k).1 hk), rfl⟩)
      exact (hblock.trans (OnlyChanges.setI _ (.inr (.inl rfl)))).trans (OnlyChanges.advance (.inl rfl))
  · exact ⟨_, (exec_regDump x s).trans (withinMemory_of_ge _ _ _ h), raise_takes s _⟩

/-- Settles O46: the loop loads the block from memory it does not change, then `I` moves past it. -/
theorem regLoadReadsBlock : Obligations.RegLoadReadsBlock := by
  refine ⟨encodes_regLoad, fun x s h => ?_, fun x s h => ?_⟩
  · refine ⟨_, (exec_regLoad x s).trans (withinMemory_of_lt _ _ _ h), fun k hk => ?_, ?_, ?_, ?_⟩
    · rw [State.advance_reg, bumpI_reg, loadRegs_block_reg hk]
    · rw [State.advance_I, bumpI_toNat, loadRegs_I]
    · rw [State.advance_pc, bumpI_pc, loadRegs_pc]
    · have hblock := loadRegs_only (fun it => it = .pc ∨ it = .I ∨ ∃ k : Reg, k ≤ x ∧ it = .reg k) (regsUpTo x) s
        fun k hk => .inr (.inr ⟨k, (mem_regsUpTo x k).1 hk, rfl⟩)
      exact (hblock.trans (OnlyChanges.setI _ (.inr (.inl rfl)))).trans (OnlyChanges.advance (.inl rfl))
  · exact ⟨_, (exec_regLoad x s).trans (withinMemory_of_ge _ _ _ h), raise_takes s _⟩

/-! ## Two instructions in a row -/

/-- Settles O47: `bcd-store` leaves `I`, so `reg-load` reads the three digits back. -/
theorem bcdRoundTrip : Obligations.BcdRoundTrip := by
  intro x s t hm h hstore
  obtain ⟨-, hdigits, -⟩ := bcdStoresDigits
  obtain ⟨t', e, h0, h1, h2, -, honly⟩ := hdigits x s hm h
  rw [hstore] at e
  cases e
  have hI : t.I = s.I := honly .I (by simp [ByteAtI])
  have heff (k : Nat) : effAddr t k = effAddr s k := congrArg (·.toNat + k) hI
  obtain ⟨-, hload, -⟩ := regLoadReadsBlock
  obtain ⟨u, hu, hblock, hIu, -, -⟩ := hload 2 t (by rw [heff]; exact h)
  refine ⟨u, hu, ?_, ?_, ?_, ?_⟩
  · rw [hblock 0 (by decide), heff]; exact h0
  · rw [hblock 1 (by decide), heff]; exact h1
  · rw [hblock 2 (by decide), heff]; exact h2
  · have hlt : s.I.toNat + 2 < 4096 := h
    rw [hIu, hI]
    show (s.I.toNat + 2 + 1) % 65536 = _
    omega

/-- Settles O48: the fetch reads the two adjacent bytes of the block, big-endian. -/
theorem storedBytesAreFetched : Obligations.StoredBytesAreFetched := by
  intro x k k' s t hm h hkk' hk' hdump
  obtain ⟨-, hstores, -⟩ := regDumpStoresBlock
  obtain ⟨t', e, hblock, -⟩ := hstores x s hm h
  rw [hdump] at e
  cases e
  have hk : k ≤ x := Fin.le_def.2 (by have := Fin.le_def.1 hk'; omega)
  have hnext : effAddr s k'.val = effAddr s k.val + 1 := congrArg (s.I.toNat + ·) hkk'
  have hlt : effAddr s k.val + 1 < 4096 :=
    hnext ▸ Nat.lt_of_le_of_lt (Nat.add_le_add_left (Fin.le_def.1 hk') s.I.toNat) h
  have hpc : (BitVec.ofNat 16 (effAddr s k.val)).toNat = effAddr s k.val := by
    rw [BitVec.toNat_ofNat]; omega
  refine ⟨_, fetchWord_of_lt _ (by rw [State.setPc_pc, hpc]; exact hlt), ?_⟩
  rw [wordOfBytes_toNat, State.setPc_pc, hpc, State.setPc_readByte, State.setPc_readByte, hblock k hk, ← hnext,
    hblock k' hk']

end Sys2Proof.Machine
end

section
/-! PROOFS. The statements about `draw` of 45_display.md (R502 to R504), under either edge policy. -/

namespace Sys2Proof.Machine

/-! ## The targets under each policy -/

/-- Under `Wrap` every sprite bit has a target (R502). -/
theorem target_wrap (c r : Nat) (q : Col × Row) : target .wrap c r = some q ↔ c % 64 = q.1.val ∧ r % 32 = q.2.val := by
  simp only [target, Option.some.injEq, Prod.ext_iff, Fin.ext_iff, Fin.val_ofNat]

theorem target_wrap_eq_clip {c r : Nat} (hc : c < 64) (hr : r < 32) : target .wrap c r = target .clip c r := by
  have hclip : target .clip c r = some (⟨c, hc⟩, ⟨r, hr⟩) := (target_clip _ _ _).2 ⟨rfl, rfl⟩
  rw [hclip, target_wrap]
  exact ⟨Nat.mod_eq_of_lt hc, Nat.mod_eq_of_lt hr⟩

/-- Inside the display the two policies have the same targets, bit by bit. -/
theorem spriteHits_wrap_eq_clip {s : State} {ox oy n : Nat} (hx : ox + 8 ≤ 64) (hy : oy + n ≤ 32) :
    spriteHits .wrap s ox oy n = spriteHits .clip s ox oy n := by
  refine List.flatMap_congr fun i hi => List.filterMap_congr fun j hj => ?_
  rw [List.mem_range] at hi hj
  rw [target_wrap_eq_clip (by omega) (by omega)]

/-! ## What a completed draw leaves -/

section
variable (p : Config.EdgePolicy) (x y : Reg) (n : Nat) (s : State)

@[simp] theorem drawEffect_pc : (drawEffect p x y n s).pc = s.pc + 2 := by rw [drawEffect_eq]

@[simp] theorem drawEffect_redraw : (drawEffect p x y n s).redraw = true := by rw [drawEffect_eq]

@[simp] theorem drawEffect_mem : (drawEffect p x y n s).mem = s.mem := by rw [drawEffect_eq]

@[simp] theorem drawEffect_I : (drawEffect p x y n s).I = s.I := by rw [drawEffect_eq]

/-- VF is cleared first and set by the first lit target. -/
theorem drawEffect_VF (hn : n ≤ 32) :
    (drawEffect p x y n s).reg VF =
      if ∃ q ∈ spriteHits p (s.setFlag 0) (s.reg x).toNat (s.reg y).toNat n, s.pixel q.1 q.2 = true then 1 else 0 := by
  unfold drawEffect
  rw [drawSprite_eq, State.advance_reg, State.setRedraw_reg, xorAll_VF _ _ (spriteHits_nodup _ _ _ _ _ hn)]
  simp only [State.setFlag_pixel, State.setFlag_reg_VF]

theorem drawEffect_VF_bit (hn : n ≤ 32) :
    (drawEffect p x y n s).reg VF = 1 ∨ (drawEffect p x y n s).reg VF = 0 := by
  rw [drawEffect_VF p x y n s hn]
  split
  · exact .inl rfl
  · exact .inr rfl

/-- The flag law: VF is 1 exactly when a target was lit, so when some pixel has gone out (R503). -/
theorem drawEffect_VF_iff (hn : n ≤ 32) :
    (drawEffect p x y n s).reg VF = 1 ↔ ∃ c r, s.pixel c r = true ∧ (drawEffect p x y n s).pixel c r = false := by
  have hlit : (drawEffect p x y n s).reg VF = 1 ↔
      ∃ q ∈ spriteHits p (s.setFlag 0) (s.reg x).toNat (s.reg y).toNat n, s.pixel q.1 q.2 = true := by
    rw [drawEffect_VF p x y n s hn]
    split <;> simp_all
  have hmem (c : Col) (r : Row) : (c, r) ∈ spriteHits p (s.setFlag 0) (s.reg x).toNat (s.reg y).toNat n ↔
      (drawEffect p x y n s).pixel c r ≠ s.pixel c r := by
    rw [mem_spriteHits, spriteCovers_congr p s (s.setFlag 0) _ _ _ _ _ rfl rfl, drawEffect_pixel p x y n s hn]
  rw [hlit]
  constructor
  · rintro ⟨⟨c, r⟩, hq, hpix⟩
    have hne := (hmem c r).1 hq
    rw [hpix] at hne
    exact ⟨c, r, hpix, Bool.eq_false_iff.2 hne⟩
  · rintro ⟨c, r, hpix, hout⟩
    exact ⟨(c, r), (hmem c r).2 (by rw [hpix, hout]; decide), hpix⟩

theorem drawEffect_only_items :
    OnlyChanges (fun it => it = .pc ∨ it = .redraw ∨ it = .reg VF ∨ ∃ c r, it = .pixel c r) s (drawEffect p x y n s) :=
  drawEffect_only _ p x y n s (.inr (.inr (.inl rfl))) (fun c r => .inr (.inr (.inr ⟨c, r, rfl⟩))) (.inr (.inl rfl))
    (.inl rfl)

end

/-- A pixel flipped by the first change exactly when it is flipped by the second has its first value again. -/
theorem eq_of_flipped_twice {a b c : Bool} (h : c ≠ b ↔ b ≠ a) : c = a := by
  revert a b c
  decide

/-- From one origin the second draw has the targets of the first, since memory and `I` are untouched (R504). -/
theorem drawEffect_twice_pixel {p : Config.EdgePolicy} {x y : Reg} {n : Nat} {s : State} (hn : n ≤ 32)
    (hx : (drawEffect p x y n s).reg x = s.reg x) (hy : (drawEffect p x y n s).reg y = s.reg y) (c : Col) (r : Row) :
    (drawEffect p x y n (drawEffect p x y n s)).pixel c r = s.pixel c r := by
  refine eq_of_flipped_twice (b := (drawEffect p x y n s).pixel c r) ?_
  rw [drawEffect_pixel p x y n (drawEffect p x y n s) hn, drawEffect_pixel p x y n s hn, hx, hy]
  exact spriteCovers_congr p s _ _ _ _ c r (drawEffect_mem p x y n s) (drawEffect_I p x y n s)

theorem exec_draw (x y : Reg) (n : Nat) (s : State) : exec (.draw x y n) s = execDrawUnder edgePolicy x y n s := rfl

/-- A draw of at least one row that passes the end of memory. -/
theorem execDrawUnder_past_end (p : Config.EdgePolicy) (x y : Reg) {n : Nat} {s : State} (hn : 1 ≤ n)
    (h : effAddr s (n - 1) ≥ Config.memSize) : execDrawUnder p x y n s = .next (s.raise .outOfBounds) := by
  rw [execDrawUnder, if_neg (by omega), withinMemory_of_ge _ _ _ h]

/-- Settles O52: a completed draw is the exclusive or of the sprite's targets, all distinct for at most 15 rows. -/
theorem drawFlipsSpritePixels : Obligations.DrawFlipsSpritePixels := by
  refine ⟨encodes_draw, exec_draw, fun p x y n s hn h => ?_⟩
  have hn32 : n ≤ 32 := by omega
  exact ⟨_, execDrawUnder_readable p x y n s h, drawEffect_pixel p x y n s hn32, drawEffect_VF_iff p x y n s hn32,
    drawEffect_VF_bit p x y n s hn32, drawEffect_redraw p x y n s, drawEffect_pc p x y n s,
    drawEffect_only_items p x y n s⟩

/-- Settles O53: the targets under `Wrap`, in numbers. -/
theorem drawCompletesWrapped : Obligations.DrawCompletesWrapped := by
  intro x y n s hn h
  refine ⟨_, execDrawUnder_readable .wrap x y n s h, fun c r => ?_, drawEffect_pc .wrap x y n s⟩
  rw [drawEffect_pixel .wrap x y n s (by omega)]
  simp only [SpriteCovers, target_wrap, spriteBit]

/-- Settles O54: the bound is checked on the last row, before anything is drawn. -/
theorem drawPastEndFaults : Obligations.DrawPastEndFaults := by
  intro p x y n s hn h
  exact ⟨⟨_, execDrawUnder_past_end edgePolicy x y hn h, raise_takes s _⟩,
    ⟨_, execDrawUnder_past_end p x y hn h, raise_takes s _⟩⟩

/-- Settles O55: the second draw flips the same pixels back, so it puts out exactly those the first has lit. -/
theorem drawTwiceRestoresDisplay : Obligations.DrawTwiceRestoresDisplay := by
  intro p x y n s t hn h hdraw hx hy
  have hn32 : n ≤ 32 := by omega
  rw [execDrawUnder_readable p x y n s h] at hdraw
  cases hdraw
  have hread : n = 0 ∨ effAddr (drawEffect p x y n s) (n - 1) < Config.memSize := by
    rw [effAddr, drawEffect_I]; exact h
  have hback := drawEffect_twice_pixel hn32 hx hy
  refine ⟨_, execDrawUnder_readable p x y n _ hread, hback, ?_⟩
  rw [drawEffect_VF_iff p x y n _ hn32]
  simp only [hback, and_comm]

/-- Settles O56: the two policies have the same targets, so the two draws are one. -/
theorem edgePoliciesAgreeInside : Obligations.EdgePoliciesAgreeInside := by
  intro x y n s hx hy
  have heffect : drawEffect .wrap x y n s = drawEffect .clip x y n s := by
    simp only [drawEffect, drawSprite_eq, spriteHits_wrap_eq_clip hx hy]
  rw [execDrawUnder, execDrawUnder, heffect]

/-- Settles O57: the targets under `Clip`, in numbers; none is in the display when the origin is past an edge. -/
theorem drawClippedDropsPastEdge : Obligations.DrawClippedDropsPastEdge := by
  intro x y n s hn h
  have hflips (c : Col) (r : Row) : (drawEffect .clip x y n s).pixel c r ≠ s.pixel c r ↔
      ∃ i j : Nat, i < n ∧ j < 8 ∧ (s.readByte (effAddr s i)).getLsbD (7 - j) = true ∧
        (s.reg x).toNat + j = c.val ∧ (s.reg y).toNat + i = r.val := by
    rw [drawEffect_pixel .clip x y n s (by omega)]
    simp only [SpriteCovers, target_clip, spriteBit]
  refine ⟨_, execDrawUnder_readable .clip x y n s h, hflips, fun hout c r => ?_, drawEffect_pc .clip x y n s⟩
  by_contra hne
  obtain ⟨i, j, -, -, -, hc, hr⟩ := (hflips c r).1 hne
  have := c.isLt
  have := r.isLt
  omega

end Sys2Proof.Machine
end
